-- ==== Sys2Proof/Word.lean ====
section
/-! DEFINITION. The words of CORE: bytes and the six-slot character field (spec/10_state.md R21, R22). -/

namespace Sys2Proof

/-- An 8-bit word: a character code (R71), a counter (R29, R30), the power port (R21). -/
abbrev Byte := BitVec 8

/-- Six 8-bit character registers, slot 0 the leftmost character as written: `CALL`, `GRID` (R21) and `F` (R22). -/
structure Field6 where
  c0 : Byte
  c1 : Byte
  c2 : Byte
  c3 : Byte
  c4 : Byte
  c5 : Byte
  deriving DecidableEq, Repr

end Sys2Proof
end

