-- ==== Sys2Proof/Config.lean ====
section
/-! DEFINITION. The free values: results the spec does not state, as constants with no body.
CORE has no implementation parameter (spec/00_scope.md R5, R6); time, the one thing left open, is not modelled
(notes/assumptions/12.md). -/

namespace Sys2Proof

/-- DESIGN CHOICE, safe (notes/assumptions/8.md): what `CALL_PACK` writes to `N1` when a character of `F` is outside
the alphabet of its position; R73 to R75 give such a character no value, and R107 reads only fields `CALL_NORM` can
produce. A function of `F` alone, since nothing in CORE draws a value from outside (R219). -/
opaque Config.unstatedN1 : Field6 → BitVec 28

/-- DESIGN CHOICE, safe (notes/assumptions/9.md): what `GRID_PACK` writes to `M` when one of the first four characters
of `GRID` is outside its alphabet (R74, R75 give it no value); the arguments are those four characters. -/
opaque Config.unstatedM : Byte → Byte → Byte → Byte → BitVec 15

end Sys2Proof
end

