-- ==== Sys2Proof/Syntax.lean ====
section
/-! DEFINITION. The operations of spec/30_encoding.md R80 as one inductive, one constructor per row of
spec/opcode_table.json, and the request record a host presents (R70). -/

namespace Sys2Proof

/-- The operations of R80. The operand `k` of the last four is the field `K` of the sequencer word, the bits their
rows' masks leave open: DOC's loop index. -/
inductive Instr where
  | reset
  | accept
  | callNorm
  | gridChk
  | pwrLookup
  | callPack
  | gridPack
  | assemble
  | convStep (k : Byte)
  | ilvStep (k : Byte)
  | mrgStep (k : Byte)
  | emitStep (k : Byte)
  deriving DecidableEq, Repr

/-- The phases of R29, in pipeline order. -/
inductive Phase where
  | idle
  | pack
  | conv
  | ilv
  | merge
  | emit
  deriving DecidableEq, Repr

/-- The payload of the request port (spec/10_state.md R36), the record `REQ` field by field (R70). -/
structure Req where
  callLen : BitVec 3
  call : Field6
  gridLen : BitVec 3
  grid : Field6
  dbm : Byte
  deriving DecidableEq, Repr

/-- The three recoverable error kinds (spec/60_exceptions.md R240). -/
inductive EncodeError where
  | invalidCallsign
  | invalidGrid
  | invalidPower
  deriving DecidableEq, Repr

end Sys2Proof
end

