-- ==== Sys2Proof/WellFormed.lean ====
section
/-! DEFINITION. Which operations a row of the operation map selects: the ranges of `K` (spec/30_encoding.md R80). -/

namespace Sys2Proof

/-- The operand is in the range the operation's row gives `K`. -/
def Instr.wf (i : Instr) : Bool :=
  match i with
  | .reset | .accept | .callNorm | .gridChk | .pwrLookup | .callPack | .gridPack | .assemble => true
  | .convStep k => decide (k.toNat ≤ 80)
  | .ilvStep _ => true
  | .mrgStep k => decide (k.toNat ≤ 161)
  | .emitStep k => decide (k.toNat ≤ 161)

end Sys2Proof
end

