-- ==== Sys2Proof/Decode.lean ====
section
/-! DEFINITION. The operation map (spec/30_encoding.md R80, R82): the decoder of the selection word, its encoder, the
table's match and mask, and the 110-bit request record (R70).

The selection word is `SW = {PH[2:0], K[7:0]}` with the port `rst` above it, at bit 11 (DESIGN CHOICE, safe:
notes/assumptions/7.md): `RESET` is selected by `rst` alone and overrides every other row. -/

namespace Sys2Proof

/-- The phase codes of R29. -/
def Phase.code (p : Phase) : BitVec 3 :=
  match p with
  | .idle => 0
  | .pack => 1
  | .conv => 2
  | .ilv => 3
  | .merge => 4
  | .emit => 5

/-- Why a sequencer word selects no operation: the six kinds of reserved word of R82. -/
inductive Reserved where
  /-- `PH` = 0 with `K` != 0 -/
  | idleCounter
  /-- `PH` = 1 with `K` >= 6 -/
  | packCounter
  /-- `PH` = 2 with `K` >= 81 -/
  | convCounter
  /-- `PH` = 4 with `K` >= 162 -/
  | mergeCounter
  /-- `PH` = 5 with `K` >= 162 -/
  | emitCounter
  /-- `PH` = 6 or 7 with any `K` -/
  | phaseCode
  deriving DecidableEq, Repr

/-- The six sub-steps of phase `PACK` by their number (R80). -/
def packStep (k : Byte) : Except Reserved Instr :=
  if k = 0 then .ok .callNorm
  else if k = 1 then .ok .gridChk
  else if k = 2 then .ok .pwrLookup
  else if k = 3 then .ok .callPack
  else if k = 4 then .ok .gridPack
  else if k = 5 then .ok .assemble
  else .error .packCounter

/-- The operation the sequencer word `{ph, k}` selects while `rst` = 0 (R80), or the reserved word's kind (R82). -/
def decodeSequencer (ph : BitVec 3) (k : Byte) : Except Reserved Instr :=
  if ph = Phase.idle.code then
    if k = 0 then .ok .accept else .error .idleCounter
  else if ph = Phase.pack.code then packStep k
  else if ph = Phase.conv.code then
    if k.toNat ≤ 80 then .ok (.convStep k) else .error .convCounter
  else if ph = Phase.ilv.code then .ok (.ilvStep k)
  else if ph = Phase.merge.code then
    if k.toNat ≤ 161 then .ok (.mrgStep k) else .error .mergeCounter
  else if ph = Phase.emit.code then
    if k.toNat ≤ 161 then .ok (.emitStep k) else .error .emitCounter
  else .error .phaseCode

/-- The selection word: `rst` above `PH` above `K`. -/
def selectionWord (rst : Bool) (ph : BitVec 3) (k : Byte) : BitVec 12 :=
  BitVec.ofBool rst ++ (ph ++ k)

/-- The decoder, total on every selection word. -/
def decode (w : BitVec 12) : Except Reserved Instr :=
  if w.getLsbD 11 then .ok .reset
  else decodeSequencer (w.extractLsb' 8 3) (w.extractLsb' 0 8)

/-- The selection word of an operation, from the `PH` and `K` columns of R80 (`RESET`: the port alone, `SW` zero). -/
def encode (i : Instr) : BitVec 12 :=
  match i with
  | .reset => selectionWord true 0 0
  | .accept => selectionWord false Phase.idle.code 0
  | .callNorm => selectionWord false Phase.pack.code 0
  | .gridChk => selectionWord false Phase.pack.code 1
  | .pwrLookup => selectionWord false Phase.pack.code 2
  | .callPack => selectionWord false Phase.pack.code 3
  | .gridPack => selectionWord false Phase.pack.code 4
  | .assemble => selectionWord false Phase.pack.code 5
  | .convStep k => selectionWord false Phase.conv.code k
  | .ilvStep k => selectionWord false Phase.ilv.code k
  | .mrgStep k => selectionWord false Phase.merge.code k
  | .emitStep k => selectionWord false Phase.emit.code k

/-- One row of the operation map: the match, the mask and the last value of `K` of its range condition. -/
structure Row where
  matchWord : BitVec 11
  mask : BitVec 11
  lastK : Nat
  deriving DecidableEq, Repr

/-- The row of an operation, as spec/opcode_table.json gives it (R80). -/
def Instr.row (i : Instr) : Row :=
  match i with
  | .reset => ⟨0x000, 0x000, 255⟩
  | .accept => ⟨0x000, 0x7FF, 0⟩
  | .callNorm => ⟨0x100, 0x7FF, 0⟩
  | .gridChk => ⟨0x101, 0x7FF, 1⟩
  | .pwrLookup => ⟨0x102, 0x7FF, 2⟩
  | .callPack => ⟨0x103, 0x7FF, 3⟩
  | .gridPack => ⟨0x104, 0x7FF, 4⟩
  | .assemble => ⟨0x105, 0x7FF, 5⟩
  | .convStep _ => ⟨0x200, 0x700, 80⟩
  | .ilvStep _ => ⟨0x300, 0x700, 255⟩
  | .mrgStep _ => ⟨0x400, 0x700, 161⟩
  | .emitStep _ => ⟨0x500, 0x700, 161⟩

/-- A row selects the sequencer word `sw`: `(SW & mask) == match` and `K` within its range (R80). -/
def Row.selects (r : Row) (sw : BitVec 11) : Bool :=
  decide (sw &&& r.mask = r.matchWord) && decide ((sw.extractLsb' 0 8).toNat ≤ r.lastK)

/-- The instruction the decoder reads from the table's bits of a row: bits 10..0 are `SW`, bit 11 the port `rst`.
The table gives the `RESET` row no bit at all (mask zero): with `nbits` = 0 the row is `RESET`
(notes/assumptions/7.md). -/
def decodeTableWord (nbits w : Nat) : Option Instr :=
  if nbits = 0 then some .reset
  else if w < 2 ^ 12 then
    match decode (BitVec.ofNat 12 w) with
    | .ok i => some i
    | .error _ => none
  else none

/-- The six character slots as 48 bits, slot 0 in the most significant byte (R70). -/
def fieldBits (f : Field6) : BitVec 48 :=
  f.c0 ++ (f.c1 ++ (f.c2 ++ (f.c3 ++ (f.c4 ++ f.c5))))

/-- The six character slots of 48 bits. -/
def fieldOfBits (b : BitVec 48) : Field6 :=
  ⟨b.extractLsb' 40 8, b.extractLsb' 32 8, b.extractLsb' 24 8, b.extractLsb' 16 8, b.extractLsb' 8 8,
    b.extractLsb' 0 8⟩

/-- The packed record `REQ` of a payload (R70). -/
def Req.toBits (q : Req) : BitVec 110 :=
  q.callLen ++ (fieldBits q.call ++ (q.gridLen ++ (fieldBits q.grid ++ q.dbm)))

/-- The payload a packed record `REQ` stands for (R70). Every 110-bit value is a payload (R83). -/
def Req.ofBits (b : BitVec 110) : Req :=
  { callLen := b.extractLsb' 107 3
    call := fieldOfBits (b.extractLsb' 59 48)
    gridLen := b.extractLsb' 56 3
    grid := fieldOfBits (b.extractLsb' 8 48)
    dbm := b.extractLsb' 0 8 }

end Sys2Proof
end

