-- ==== Sys2Proof/Machine/State.lean ====
section
/-! DEFINITION. The state of one CORE instance (spec/10_state.md R20 to R42), its faults and refusals, and the state
after reset (R41). -/

namespace Sys2Proof.Machine

/-- The stored index spaces of spec/20_memory.md R50. -/
inductive Space where
  | cbuf
  | dbuf
  | ybuf
  | syncRom
  | pwrRom
  deriving DecidableEq, Repr

/-- A machine fault: a condition spec/60_exceptions.md R250 calls a failure that is not an error. None is reachable
from reset; none is one of the three error results, which are next states. -/
inductive Fault where
  /-- Raised by a read of a buffer element not written since reset (R40, R51): by `ILV_STEP`, `MRG_STEP`,
  `EMIT_STEP`. Safe: the model stops where the hardware would go on with an unspecified value. -/
  | unwrittenElement (space : Space) (index : Nat)
  /-- Raised by an access outside the index range of its space (R51, R52): by an operation whose `K` is outside its
  row's range, and by `ILV_STEP` when `P` is 162 or more at a copy. Safe. -/
  | indexOutOfRange (space : Space) (index : Nat)
  /-- Raised by `ILV_STEP` at `K` = 255 when `P` is not 162 after the loop (R162, R250; 93_implementation_defined.md
  U4). Safe. -/
  | interleaverCount (p : BitVec 8)
  deriving DecidableEq, Repr

/-- Why no meaning is given to a step. -/
inductive Refusal where
  /-- An operation whose meaning is not written, by its mnemonic. Raised by no arm of `exec`. Safe. -/
  | notModelled (mnemonic : String)
  /-- The sequencer holds a reserved word (spec/30_encoding.md R82: "refuse, never a guessed one"). Raised by `step`
  alone; unreachable from reset. Safe. -/
  | reservedWord (kind : Reserved)
  deriving DecidableEq, Repr

/-- A buffer of `w`-bit elements as the elements written since reset, by index (R50). Canonical: indices strictly
rising, each below 162 (`Buf.wf`); an index not listed holds no value (R40). -/
abbrev Buf (w : Nat) := List (Nat × BitVec w)

/-- The canonical form of a buffer. -/
abbrev Buf.wf {w : Nat} (b : Buf w) : Prop :=
  (b.map Prod.fst).Pairwise (· < ·) ∧ ∀ e ∈ b, e.1 < 162

/-- The three buffers of R26, R27, R28. -/
structure Memory where
  /-- `CBUF`, the coded bit stream -/
  cbuf : Buf 1
  /-- `DBUF`, the interleaved bit stream -/
  dbuf : Buf 1
  /-- `YBUF`, the symbol stream -/
  ybuf : Buf 2
  deriving DecidableEq, Repr

/-- Every buffer is in canonical form. -/
abbrev Memory.wf (m : Memory) : Prop := Buf.wf m.cbuf ∧ Buf.wf m.dbuf ∧ Buf.wf m.ybuf

/-- The levels on CORE's input ports at one step boundary (R35, R36, R38). -/
structure Ports where
  /-- reset request -/
  rst : Bool
  /-- `req_valid` -/
  reqValid : Bool
  /-- the payload: `req_call_len`, `req_call`, `req_grid_len`, `req_grid`, `req_dbm` -/
  req : Req
  /-- `sym_ready` -/
  symReady : Bool
  deriving DecidableEq, Repr

/-- Nothing driven: no reset, no request, no symbol taken (notes/assumptions/5.md). -/
def Ports.low : Ports :=
  ⟨false, false, ⟨0, ⟨0, 0, 0, 0, 0, 0⟩, 0, ⟨0, 0, 0, 0, 0, 0⟩, 0⟩, false⟩

/-- The state of R20, with the levels on the input ports and the host's coming moves. -/
structure State where
  /-- the request latch `CALL_LEN`, `CALL`, `GRID_LEN`, `GRID`, `DBM` (R21) -/
  latch : Req
  /-- `F[0..5]`, the normalised callsign (R22) -/
  f : Field6
  /-- `N1`, the packed callsign (R23) -/
  n1 : BitVec 28
  /-- `M`, the packed grid (R23) -/
  m : BitVec 15
  /-- `PW`, the power code (R23) -/
  pw : BitVec 7
  /-- `N`, the source word (R24) -/
  n : BitVec 50
  /-- `R`, the encoder shift register (R25) -/
  r : BitVec 32
  /-- `CBUF`, `DBUF`, `YBUF` (R26 to R28) -/
  mem : Memory
  /-- `PH`, the phase code (R29); codes 6 and 7 are reserved -/
  ph : BitVec 3
  /-- `K`, the step counter (R29) -/
  k : Byte
  /-- `P`, the interleaver's read index (R30) -/
  p : Byte
  /-- `BUSY` (R31) -/
  busy : Bool
  /-- `DONE` (R31) -/
  done : Bool
  /-- `ERR` (R32) -/
  err : BitVec 3
  /-- `OUT`, the pairs handed to the host, oldest first (R33) -/
  out : List (Byte × BitVec 2)
  /-- the input ports now (R35, R36, R38) -/
  ports : Ports
  /-- the model's own field: the levels the host drives at the coming step boundaries, the next one first; when it is
  empty the ports hold their levels (notes/assumptions/5.md) -/
  host : List Ports
  deriving DecidableEq, Repr

/-- The machine right after reset (R41). `PH`, `K`, `P`, `R`, `BUSY`, `DONE`, `ERR`, `OUT` are the spec's; the request
latch, `F`, `N1`, `M`, `PW`, `N` have no reset value in the spec and are zero here (DESIGN CHOICE, unsafe:
notes/assumptions/1.md); no buffer element is written; the input ports are low (notes/assumptions/5.md). -/
def State.reset : State :=
  { latch := ⟨0, ⟨0, 0, 0, 0, 0, 0⟩, 0, ⟨0, 0, 0, 0, 0, 0⟩, 0⟩
    f := ⟨0, 0, 0, 0, 0, 0⟩
    n1 := 0
    m := 0
    pw := 0
    n := 0
    r := 0
    mem := ⟨[], [], []⟩
    ph := 0
    k := 0
    p := 0
    busy := false
    done := false
    err := 0
    out := []
    ports := Ports.low
    host := [] }

/-- The outcome of one operation or one step. -/
abbrev Result := Host.Outcome State Fault Refusal

end Sys2Proof.Machine
end

