-- ==== Sys2Proof/Machine/Flags.lean ====
section
/-! DEFINITION. The status flags, the status register and the output ports (spec/10_state.md R31, R32, R36 to R38;
30_encoding.md R79). CORE has no arithmetic condition codes (R31). -/

namespace Sys2Proof.Machine

/-- The error codes of R79. -/
def errorCode (e : EncodeError) : BitVec 3 :=
  match e with
  | .invalidCallsign => 2
  | .invalidGrid => 3
  | .invalidPower => 4

/-- The one write of the status register: `BUSY`, `DONE`, `ERR`. -/
def State.setFlags (s : State) (busy done : Bool) (err : BitVec 3) : State :=
  { s with busy := busy, done := done, err := err }

/-- `STATUS` = `{ERR[2:0], DONE, BUSY}` (R32). -/
def State.status (s : State) : BitVec 5 := s.err ++ (BitVec.ofBool s.done ++ BitVec.ofBool s.busy)

/-- Output `req_ready`: 1 exactly when `PH` = `IDLE` (R36). -/
def State.reqReady (s : State) : Bool := decide (s.ph = Phase.idle.code)

/-- Output `sym_valid`: 1 exactly when `PH` = `EMIT` (R38). -/
def State.symValid (s : State) : Bool := decide (s.ph = Phase.emit.code)

/-- What the symbol port shows while `sym_valid` = 1 (R38, R54). -/
structure SymbolPort where
  sym : BitVec 2
  symByte : Byte
  symIdx : Byte
  symLast : Bool
  deriving DecidableEq, Repr

/-- The byte form of a symbol: `zext_8(sym)` (R54). -/
def symByteOf (v : BitVec 2) : Byte := v.zeroExtend 8

end Sys2Proof.Machine
end

