-- ==== Sys2Proof/Machine/Roms.lean ====
section
/-! DEFINITION. The constant tables (spec/10_state.md R34): `SYNC_ROM` (43_symbol_merger.md R175), `PWR_ROM`
(30_encoding.md R76) and the generator constants (41_conv_encoder.md R142). No operation writes them. -/

namespace Sys2Proof.Machine

/-- `SYNC_ROM[0..161]`, element 0 first, in the rows of R175. -/
def syncRom : List (BitVec 1) :=
  [1,1,0,0,0,0,0,0,1,0,0,0,1,1,1,0,0,0,1,0,0,1,0,1,1,1,1,0,0,0] ++
  [0,0,0,0,1,0,0,1,0,1,0,0,0,0,0,0,1,0,1,1,0,0,1,1,0,1,0,0,0,1] ++
  [1,0,1,0,0,0,0,1,1,0,1,0,1,0,1,0,1,0,0,1,0,0,1,0,1,1,0,0,0,1] ++
  [1,0,1,0,1,0,0,0,1,0,0,0,0,0,1,0,0,1,0,0,1,1,1,0,1,1,0,0,1,1] ++
  [0,1,0,0,0,1,1,1,0,0,0,0,0,1,0,1,0,0,1,1,0,0,0,0,0,0,0,1,1,0] ++
  [1,0,1,1,0,0,0,1,1,0,0,0]

/-- `PWR_ROM[0..27]`, the allowed powers as 8-bit two's complement (the column `DBM` of R76). -/
def pwrRom : List Byte :=
  [0xE2, 0xE5, 0xE9, 0xEC, 0xEF, 0xF3, 0xF6, 0xF9, 0xFD, 0x00, 0x03, 0x07, 0x0A, 0x0D, 0x11, 0x14, 0x17, 0x1B,
    0x1E, 0x21, 0x25, 0x28, 0x2B, 0x2F, 0x32, 0x35, 0x39, 0x3C]

/-- `G0` (R142). -/
def G0 : BitVec 32 := 0xF2D05351

/-- `G1` (R142). -/
def G1 : BitVec 32 := 0xE4613C47

end Sys2Proof.Machine
end

