-- ==== Sys2Proof/Machine/Ops.lean ====
section
/-! DEFINITION. The named operations over memory and registers: element reads and writes (spec/20_memory.md R51, R52),
the sequencer's moves (45_sequencer_and_api.md R212, R214), raising an error (60_exceptions.md R247), handing out a
symbol (00_scope.md R10), and the host's move between steps. -/

namespace Sys2Proof.Machine

/-- The element at an index, if it has been written. -/
def bufRead {w : Nat} (b : Buf w) (i : Nat) : Option (BitVec w) :=
  match b with
  | [] => none
  | (j, v) :: b => if i = j then some v else bufRead b i

/-- The buffer with the element at an index replaced, in rising order of the indices. -/
def bufWrite {w : Nat} (b : Buf w) (i : Nat) (v : BitVec w) : Buf w :=
  match b with
  | [] => [(i, v)]
  | (j, x) :: b =>
    if i < j then (i, v) :: (j, x) :: b
    else if i = j then (i, v) :: b
    else (j, x) :: bufWrite b i v

/-- `MemRead(SPACE[i], w)` on a buffer (R51): the index must be in range and the element written. -/
def memRead {w : Nat} (sp : Space) (b : Buf w) (i : Nat) : Except Fault (BitVec w) :=
  if i < 162 then
    match bufRead b i with
    | some v => .ok v
    | none => .error (.unwrittenElement sp i)
  else .error (.indexOutOfRange sp i)

/-- `MemWrite(SPACE[i], w, v)` (R52): element `i` and no other. -/
def memWrite {w : Nat} (sp : Space) (b : Buf w) (i : Nat) (v : BitVec w) : Except Fault (Buf w) :=
  if i < 162 then .ok (bufWrite b i v) else .error (.indexOutOfRange sp i)

/-- `MemRead(SPACE[i], w)` on a ROM (R51). -/
def romRead {w : Nat} (sp : Space) (rom : List (BitVec w)) (i : Nat) : Except Fault (BitVec w) :=
  match rom[i]? with
  | some v => .ok v
  | none => .error (.indexOutOfRange sp i)

/-- Go on with the value of an access, or stop with its fault: a step that faults writes nothing. -/
def orFault {α : Type} (x : Except Fault α) (f : α → Result) : Result :=
  match x with
  | .ok a => f a
  | .error e => .fault e

/-- `enter(ph)` (R212): the phase, `K` cleared, and `R` cleared for `CONV`, `P` for `ILV`. -/
def State.enter (s : State) (ph : Phase) : State :=
  { s with
    ph := ph.code
    k := 0
    r := if ph = .conv then 0 else s.r
    p := if ph = .ilv then 0 else s.p }

/-- `(PH,K) <- (ph, k)` (R10), the analogue of a jump to an operation (R29). -/
def State.goTo (s : State) (ph : Phase) (k : Byte) : State := { s with ph := ph.code, k := k }

/-- `K <- k`, within the phase (R214). -/
def State.setK (s : State) (k : Byte) : State := { s with k := k }

/-- The end of a step of a loop phase: `enter` of the next phase when `K` is the phase's last value, else
`K <- K + 1` (R214). -/
def State.advance (s : State) (k last : Byte) (next : Phase) : State :=
  if k = last then s.enter next else s.setK (k + 1)

/-- The end of a transaction (R217): `BUSY <- 0`, `DONE <- 1`, `enter(IDLE)`. -/
def State.finish (s : State) : State := (s.setFlags false true s.err).enter .idle

/-- `raise E` (R247), the one way an error is taken: the code in `ERR`, `BUSY <- 0`, `DONE <- 1`, `enter(IDLE)`, and
nothing else. Nothing is saved and there is no return (R248). -/
def State.raise (s : State) (e : EncodeError) : State := (s.setFlags false true (errorCode e)).enter .idle

/-- `emit(i, v)` (R10): append to `OUT`. -/
def State.emit (s : State) (i : Byte) (v : BitVec 2) : State := { s with out := s.out ++ [(i, v)] }

/-- The selection word CORE sees at a step boundary (spec/30_encoding.md R80, R35). -/
def State.selection (s : State) : BitVec 12 := selectionWord s.ports.rst s.ph s.k

/-- The host's move between two steps: the next levels it drives, or the ports hold (notes/assumptions/5.md). -/
def State.hostMove (s : State) : State :=
  match s.host with
  | [] => s
  | p :: ps => { s with ports := p, host := ps }

/-- What a step adds after the operation: the host's move when CORE goes on; a fault or a refusal stays. -/
def afterStep (r : Result) : Result :=
  match r with
  | .next s => .next s.hostMove
  | .fault e => .fault e
  | .refused e => .refused e

/-- The state in which the sequencer selects the operation of a selection word: `rst`, `PH` and `K` as the word has
them, and the handshake input the operation waits for raised (`req_valid` in `IDLE`, `sym_ready` in `EMIT`). -/
def State.select (s : State) (w : BitVec 12) : State :=
  { s with
    ph := w.extractLsb' 8 3
    k := w.extractLsb' 0 8
    ports :=
      { s.ports with
        rst := w.getLsbD 11
        reqValid := s.ports.reqValid || decide (w.extractLsb' 8 3 = Phase.idle.code)
        symReady := s.ports.symReady || decide (w.extractLsb' 8 3 = Phase.emit.code) } }

/-- The state in which `RESET` is selected: `rst` = 1, whatever the sequencer holds (R270). -/
def State.selectReset (s : State) : State := { s with ports := { s.ports with rst := true } }

end Sys2Proof.Machine
end

