-- ==== Sys2Proof/Machine/Operands.lean ====
section
/-! DEFINITION. The operand forms: character classes and values (spec/30_encoding.md R71 to R75), the callsign grammar
and its normalised field (40_field_packer.md R101), the locator and power tests (R105, R106), the three packings and
their assembly (R107 to R109), the encoder's bit functions (41_conv_encoder.md R141, R143, R144), the interleaver's
index (42_interleaver.md R160) and the symbol (43_symbol_merger.md R176). -/

namespace Sys2Proof.Machine

/-- The space character (R71). -/
def space : Byte := 0x20

/-- `isdigit` (R71). -/
def isDigit (c : Byte) : Bool := decide (0x30 ≤ c.toNat) && decide (c.toNat ≤ 0x39)

/-- `isupper` (R71). -/
def isUpper (c : Byte) : Bool := decide (0x41 ≤ c.toNat) && decide (c.toNat ≤ 0x5A)

/-- `islower` (R71). -/
def isLower (c : Byte) : Bool := decide (0x61 ≤ c.toNat) && decide (c.toNat ≤ 0x7A)

/-- `alnum` (R101). -/
def isAlnum (c : Byte) : Bool := isDigit c || isUpper c

/-- `'A' <= c <= 'R'`, the first two grid characters (R105). -/
def isAtoR (c : Byte) : Bool := decide (0x41 ≤ c.toNat) && decide (c.toNat ≤ 0x52)

/-- `'A' <= c <= 'X'`, the last two grid characters (R105). -/
def isAtoX (c : Byte) : Bool := decide (0x41 ≤ c.toNat) && decide (c.toNat ≤ 0x58)

/-- Case folding `up(c)` (R72). -/
def up (c : Byte) : Byte := if isLower c then c - 0x20 else c

/-- `v37(c)`: digits 0..9, letters 10..35, space 36 (R73). -/
def v37 (c : Byte) : Option Nat :=
  if isDigit c then some (c.toNat - 0x30)
  else if isUpper c then some (c.toNat - 0x41 + 10)
  else if c = space then some 36
  else none

/-- `v10(c)`: digits 0..9 (R74). -/
def v10 (c : Byte) : Option Nat := if isDigit c then some (c.toNat - 0x30) else none

/-- `v27(c)`: letters 0..25, space 26 (R75). -/
def v27 (c : Byte) : Option Nat :=
  if isUpper c then some (c.toNat - 0x41) else if c = space then some 26 else none

/-- `vAR(c)`: `A`..`R` as 0..17 (R75). -/
def vAR (c : Byte) : Option Nat := if isAtoR c then some (c.toNat - 0x41) else none

/-- Element `i` of a character field (R9). -/
def charAt (f : Field6) (i : Fin 6) : Byte :=
  match i with
  | 0 => f.c0
  | 1 => f.c1
  | 2 => f.c2
  | 3 => f.c3
  | 4 => f.c4
  | 5 => f.c5

/-- The character field with the given elements. -/
def fieldOf (g : Fin 6 → Byte) : Field6 := ⟨g 0, g 1, g 2, g 3, g 4, g 5⟩

/-- The indices of a character field. -/
def slots : List (Fin 6) := [0, 1, 2, 3, 4, 5]

/-- `u[i] = up(X[i])` (R101, R105). -/
def folded (x : Field6) (i : Fin 6) : Byte := up (charAt x i)

/-- `isupper(u[i])` for every `i` in `a .. len-1` (R101). -/
def lettersFrom (x : Field6) (a len : Nat) : Bool :=
  slots.all fun i => !(decide (a ≤ i.val) && decide (i.val < len)) || isUpper (folded x i)

/-- `fit1` of R101: one prefix character, the digit, 1 to 3 letters. -/
def fit1 (call : Field6) (len : Nat) : Bool :=
  isAlnum (folded call 0) && isDigit (folded call 1) && decide (3 ≤ len) && decide (len ≤ 5) && lettersFrom call 2 len

/-- `fit2` of R101: two prefix characters, the digit, 1 to 3 letters. -/
def fit2 (call : Field6) (len : Nat) : Bool :=
  decide (4 ≤ len) && isAlnum (folded call 0) && isAlnum (folded call 1) && isDigit (folded call 2) &&
    lettersFrom call 3 len

/-- `CALL_NORM`'s test of the callsign (R101). -/
def callOk (call : Field6) (len : BitVec 3) : Bool :=
  decide (3 ≤ len.toNat) && decide (len.toNat ≤ 6) && (fit1 call len.toNat || fit2 call len.toNat)

/-- `s = 2 - q`, the leading spaces: 1 when the digit is at index 1, 0 when it is at index 2 (R101). -/
def leadingSpaces (call : Field6) (len : BitVec 3) : Nat := if fit1 call len.toNat then 1 else 0

/-- The normalised field `F` of an accepted callsign (R101). -/
def normalise (call : Field6) (len : BitVec 3) : Field6 :=
  let s := leadingSpaces call len
  fieldOf fun j =>
    if j.val < s then space
    else if j.val < s + len.toNat then folded call ⟨j.val - s, by omega⟩
    else space

/-- `GRID_CHK`'s test of the locator (R105). -/
def gridOk (grid : Field6) (len : BitVec 3) : Bool :=
  (decide (len.toNat = 4) || decide (len.toNat = 6)) &&
    isAtoR (folded grid 0) && isAtoR (folded grid 1) &&
    isDigit (folded grid 2) && isDigit (folded grid 3) &&
    (decide (len.toNat = 4) || (isAtoX (folded grid 4) && isAtoX (folded grid 5)))

/-- `PWR_LOOKUP`'s membership test: the signed value of `DBM` is that of an entry of `PWR_ROM` (R106). -/
def pwrOk (dbm : Byte) : Bool := pwrRom.any fun e => decide (dbm.toInt = e.toInt)

/-- The power code `p + 64` (R106). -/
def powerCode (dbm : Byte) : BitVec 7 := BitVec.ofInt 7 (dbm.toInt + 64)

/-- The packed callsign as a number, where every character has a value in its position's alphabet (R107). -/
def packCall (f : Field6) : Option Nat := do
  let v0 ← v37 f.c0
  let v1 ← v37 f.c1
  let v2 ← v10 f.c2
  let v3 ← v27 f.c3
  let v4 ← v27 f.c4
  let v5 ← v27 f.c5
  pure (((((v0 * 36 + v1) * 10 + v2) * 27 + v3) * 27 + v4) * 27 + v5)

/-- What `CALL_PACK` writes to `N1`: the packed callsign, or a free value where R107 states none. -/
def n1Of (f : Field6) : BitVec 28 :=
  match packCall f with
  | some n => BitVec.ofNat 28 n
  | none => Config.unstatedN1 f

/-- The packed grid as a number, where the first four characters are in their alphabets (R108). -/
def packGrid (grid : Field6) : Option Nat := do
  let g0 ← vAR (up grid.c0)
  let g1 ← vAR (up grid.c1)
  let g2 ← v10 grid.c2
  let g3 ← v10 grid.c3
  pure ((179 - 10 * g0 - g2) * 180 + 10 * g1 + g3)

/-- What `GRID_PACK` writes to `M`: the packed grid, or a free value where R108 states none. -/
def mOf (grid : Field6) : BitVec 15 :=
  match packGrid grid with
  | some n => BitVec.ofNat 15 n
  | none => Config.unstatedM grid.c0 grid.c1 grid.c2 grid.c3

/-- `N2 = M*128 + PW`, 22 bits (R109). -/
def n2Of (m : BitVec 15) (pw : BitVec 7) : BitVec 22 := BitVec.ofNat 22 (m.toNat * 128 + pw.toNat)

/-- `N = (N1 << 22) | N2`, 50 bits (R109). -/
def sourceWord (n1 : BitVec 28) (m : BitVec 15) (pw : BitVec 7) : BitVec 50 :=
  (n1.zeroExtend 50 <<< 22) ||| (n2Of m pw).zeroExtend 50

/-- `parity(v)`: the XOR of all 32 bits (R141). -/
def parity (v : BitVec 32) : Bool := (List.range 32).foldl (fun a t => a ^^ v.getLsbD t) false

/-- The input bit `b[k]`: `N[49-k]` for `k <= 49`, then flush zeros (R143). -/
def inputBit (n : BitVec 50) (k : Nat) : Bool := if k ≤ 49 then n.getLsbD (49 - k) else false

/-- `Rn = ((R << 1) | b) mod 2^32` (R144). -/
def shiftIn (r : BitVec 32) (b : Bool) : BitVec 32 := (r <<< 1) ||| (BitVec.ofBool b).zeroExtend 32

/-- The element `CONV_STEP` writes the `G0` parity to: `2*K` (R65). -/
def convIndex0 (k : Byte) : Nat := 2 * k.toNat

/-- The element `CONV_STEP` writes the `G1` parity to: `2*K + 1` (R65). -/
def convIndex1 (k : Byte) : Nat := 2 * k.toNat + 1

/-- `rev8(v)`: bit `b` is bit `7-b` of `v` (R160). -/
def rev8 (v : Byte) : Byte :=
  BitVec.ofBool (v.getLsbD 0) ++ (BitVec.ofBool (v.getLsbD 1) ++ (BitVec.ofBool (v.getLsbD 2) ++
    (BitVec.ofBool (v.getLsbD 3) ++ (BitVec.ofBool (v.getLsbD 4) ++ (BitVec.ofBool (v.getLsbD 5) ++
      (BitVec.ofBool (v.getLsbD 6) ++ BitVec.ofBool (v.getLsbD 7)))))))

/-- The element `ILV_STEP` writes to, when it is below 162: `rev8(K)` (R65). -/
def ilvIndex (k : Byte) : Nat := (rev8 k).toNat

/-- The symbol `s + 2*d` = `{d, s}`: data bit high, sync bit low (R78, R176). -/
def symbolOf (s d : BitVec 1) : BitVec 2 := BitVec.ofNat 2 (s.toNat + 2 * d.toNat)

/-- What the symbol port shows; meaningful only while `sym_valid` = 1, so nothing otherwise (R38;
93_implementation_defined.md V12; notes/assumptions/18.md). In `EMIT` with `YBUF[K]` not written or `K` above 161 it
shows nothing and the port's read is no fault, where R51 and D23 advise one (DESIGN CHOICE, unsafe, unreachable from
reset: notes/assumptions/21.md). -/
def State.symbolPort (s : State) : Option SymbolPort :=
  if s.symValid then
    (bufRead s.mem.ybuf s.k.toNat).map fun v => ⟨v, symByteOf v, s.k, decide (s.k = 161)⟩
  else none

end Sys2Proof.Machine
end

