-- ==== Sys2Proof/Machine/Encoder.lean ====
section
/-! DEFINITION. The operation of phase `CONV`: convolutional_encoder_r1_2_k32 (spec/41_conv_encoder.md). -/

namespace Sys2Proof.Machine

/-- `CONV_STEP` at `K` = `k` (R144): both parities are of the register after the shift, `G0` before `G1` (R145). -/
def execConvStep (k : Byte) (s : State) : Result :=
  let rn := shiftIn s.r (inputBit s.n k.toNat)
  orFault (memWrite .cbuf s.mem.cbuf (convIndex0 k) (BitVec.ofBool (parity (rn &&& G0)))) fun c0 =>
    orFault (memWrite .cbuf c0 (convIndex1 k) (BitVec.ofBool (parity (rn &&& G1)))) fun c1 =>
      .next ({ s with mem := { s.mem with cbuf := c1 }, r := rn }.advance k 80 .ilv)

end Sys2Proof.Machine
end

