-- ==== Sys2Proof/Machine/Interleaver.lean ====
section
/-! DEFINITION. The operation of phase `ILV`: bit_reverse_interleaver (spec/42_interleaver.md). -/

namespace Sys2Proof.Machine

/-- The end of an `ILV_STEP`: after the last one `P` must be 162 (R162), or the machine faults (R250;
93_implementation_defined.md U4). -/
def ilvEnd (k : Byte) (s : State) : Result :=
  if k = 255 ∧ s.p ≠ 162 then .fault (.interleaverCount s.p) else .next (s.advance k 255 .merge)

/-- `ILV_STEP` at `K` = `k` (R161): the destination index is bit-reversed, the source is read in order. -/
def execIlvStep (k : Byte) (s : State) : Result :=
  if ilvIndex k < 162 then
    orFault (memRead .cbuf s.mem.cbuf s.p.toNat) fun c =>
      orFault (memWrite .dbuf s.mem.dbuf (ilvIndex k) c) fun d =>
        ilvEnd k { s with mem := { s.mem with dbuf := d }, p := s.p + 1 }
  else ilvEnd k s

end Sys2Proof.Machine
end

