-- ==== Sys2Proof/Machine/Merger.lean ====
section
/-! DEFINITION. The operation of phase `MERGE`: symbol_merger (spec/43_symbol_merger.md). -/

namespace Sys2Proof.Machine

/-- `MRG_STEP` at `K` = `k` (R176). -/
def execMrgStep (k : Byte) (s : State) : Result :=
  orFault (romRead .syncRom syncRom k.toNat) fun sync =>
    orFault (memRead .dbuf s.mem.dbuf k.toNat) fun d =>
      orFault (memWrite .ybuf s.mem.ybuf k.toNat (symbolOf sync d)) fun y =>
        .next ({ s with mem := { s.mem with ybuf := y } }.advance k 161 .emit)

end Sys2Proof.Machine
end

