-- ==== Sys2Proof/Machine/Output.lean ====
section
/-! DEFINITION. The operation of phase `EMIT`: output_stage (spec/44_output_stage.md). -/

namespace Sys2Proof.Machine

/-- `EMIT_STEP` at `K` = `k` (R190): waits, with nothing changed, while `sym_ready` = 0 (R278). The
wait reads no element, so it goes on also where `YBUF[K]` is not written (DESIGN CHOICE, unsafe, unreachable from reset:
notes/assumptions/21.md); the read of a step that is taken faults there. -/
def execEmitStep (k : Byte) (s : State) : Result :=
  if s.ports.symReady then
    orFault (memRead .ybuf s.mem.ybuf k.toNat) fun v =>
      .next (if k = 161 then (s.emit k v).finish else (s.emit k v).setK (k + 1))
  else .next s

end Sys2Proof.Machine
end

