-- ==== Sys2Proof/Machine/Packer.lean ====
section
/-! DEFINITION. The six operations of phase `PACK`: sub-blocks base37_callsign_compress, grid_compress and power_lookup
of field_packer (spec/40_field_packer.md). -/

namespace Sys2Proof.Machine

/-- `CALL_NORM` (R101). -/
def execCallNorm (s : State) : Result :=
  if callOk s.latch.call s.latch.callLen then
    .next ({ s with f := normalise s.latch.call s.latch.callLen }.goTo .pack 1)
  else .next (s.raise .invalidCallsign)

/-- `GRID_CHK` (R105). -/
def execGridChk (s : State) : Result :=
  if gridOk s.latch.grid s.latch.gridLen then .next (s.goTo .pack 2) else .next (s.raise .invalidGrid)

/-- `PWR_LOOKUP` (R106). -/
def execPwrLookup (s : State) : Result :=
  if pwrOk s.latch.dbm then .next ({ s with pw := powerCode s.latch.dbm }.goTo .pack 3)
  else .next (s.raise .invalidPower)

/-- `CALL_PACK` (R107). -/
def execCallPack (s : State) : Result := .next ({ s with n1 := n1Of s.f }.goTo .pack 4)

/-- `GRID_PACK` (R108). -/
def execGridPack (s : State) : Result := .next ({ s with m := mOf s.latch.grid }.goTo .pack 5)

/-- `ASSEMBLE` (R109). -/
def execAssemble (s : State) : Result := .next ({ s with n := sourceWord s.n1 s.m s.pw }.enter .conv)

end Sys2Proof.Machine
end

