-- ==== Sys2Proof/Machine/Sequencer.lean ====
section
/-! DEFINITION. The operations of the sequencer: `ACCEPT` (spec/45_sequencer_and_api.md R211) and `RESET`
(70_reset_and_hazards.md R270). -/

namespace Sys2Proof.Machine

/-- `ACCEPT` (R211): samples the payload once and starts a transaction; while `req_valid` = 0 CORE idles with nothing
changed (R218). Nothing is checked here. -/
def execAccept (s : State) : Result :=
  if s.ports.reqValid then
    .next (({ s with latch := s.ports.req, out := [] }.setFlags true false 0).enter .pack)
  else .next s

/-- `RESET` (R270): every piece of CORE's state takes its reset value; the input ports and what the host will drive are
not CORE's state. The model really forgets the registers R41 leaves unspecified (notes/assumptions/19.md). -/
def execReset (s : State) : Result := .next { State.reset with ports := s.ports, host := s.host }

end Sys2Proof.Machine
end

