-- ==== Sys2Proof/Machine/Dispatch.lean ====
section
/-! DEFINITION. One arm per operation of spec/30_encoding.md R80. -/

namespace Sys2Proof.Machine

def exec (i : Instr) (s : State) : Host.Outcome State Fault Refusal :=
  match i with
  | .reset => Sys2Proof.Machine.execReset s
  | .accept => Sys2Proof.Machine.execAccept s
  | .callNorm => Sys2Proof.Machine.execCallNorm s
  | .gridChk => Sys2Proof.Machine.execGridChk s
  | .pwrLookup => Sys2Proof.Machine.execPwrLookup s
  | .callPack => Sys2Proof.Machine.execCallPack s
  | .gridPack => Sys2Proof.Machine.execGridPack s
  | .assemble => Sys2Proof.Machine.execAssemble s
  | .convStep k => Sys2Proof.Machine.execConvStep k s
  | .ilvStep k => Sys2Proof.Machine.execIlvStep k s
  | .mrgStep k => Sys2Proof.Machine.execMrgStep k s
  | .emitStep k => Sys2Proof.Machine.execEmitStep k s

end Sys2Proof.Machine
end

