-- ==== Sys2Proof/Machine/Step.lean ====
section
/-! DEFINITION. One step of CORE (spec/00_scope.md R10, R11; 30_encoding.md R80): the selected operation, then the
host's move. An operation that is not enabled waits: a next state in which only the host has moved
(notes/assumptions/6.md). A reserved sequencer word is refused (R82). -/

namespace Sys2Proof.Machine

/-- One step. -/
def step (s : State) : Host.Outcome State Fault Refusal :=
  match decode s.selection with
  | .ok i => afterStep (exec i s)
  | .error kind => .refused (.reservedWord kind)

/-- The state in which the next step runs the operation of a table word (notes/assumptions/7.md, 11.md): CORE fetches
nothing, so the word goes into the sequencer and the ports that select it. -/
def State.withFetchWord (s : State) (nbits w : Nat) : State :=
  if nbits = 0 then s.selectReset else s.select (BitVec.ofNat 12 w)

end Sys2Proof.Machine
end

