-- ==== Sys2Proof/Machine/Transaction.lean ====
section
/-! DEFINITION. A transaction as one function, from the numbered rules and not from the step machine: `pack`
(spec/40_field_packer.md R100), the coded, interleaved and symbol streams and `encode` (45_sequencer_and_api.md R210),
the permutation as a table (42_interleaver.md R163), the step counts (R220), and what a host makes of the symbols
(44_output_stage.md R192, R193, R195). -/

namespace Sys2Proof.Machine

/-- The source word of an accepted request: `N1 * 2^22 + M * 2^7 + PW` (R77, R100). -/
def packedWord (q : Req) : BitVec 50 :=
  BitVec.ofNat 50
    ((n1Of (normalise q.call q.callLen)).toNat * 2 ^ 22 + (mOf q.grid).toNat * 2 ^ 7 + (powerCode q.dbm).toNat)

/-- `pack` (R100): the three tests in order, the first that fails decides the error (R246). -/
def pack (q : Req) : Except EncodeError (BitVec 50) :=
  if callOk q.call q.callLen = false then .error .invalidCallsign
  else if gridOk q.grid q.gridLen = false then .error .invalidGrid
  else if pwrOk q.dbm = false then .error .invalidPower
  else .ok (packedWord q)

/-- `W(k)`, the encoder register after step `k`: the sum over `t` in 0..31, `t <= k`, of `b[k-t] * 2^t` (R210). -/
def window (n : BitVec 50) (k : Nat) : BitVec 32 :=
  BitVec.ofNat 32
    ((List.range 32).foldl (fun a t => a + if decide (t ≤ k) && inputBit n (k - t) then 2 ^ t else 0) 0)

/-- The coded stream `c`: `c[2k] = parity(W(k) & G0)`, `c[2k+1] = parity(W(k) & G1)` (R210). -/
def codeBit (n : BitVec 50) (i : Nat) : BitVec 1 :=
  BitVec.ofBool (parity (window n (i / 2) &&& if i % 2 = 0 then G0 else G1))

/-- `PERM[0..161]`: `rev8` of the 8-bit numbers whose reversal is below 162, in rising order (R163). -/
def permTable : List Nat := ((List.range 256).map fun k => ilvIndex (BitVec.ofNat 8 k)).filter (· < 162)

/-- `INV[j]`, the index of the coded bit that the interleaver writes to `j` (R163). -/
def permInverse (j : Nat) : Nat := permTable.idxOf j

/-- The number of copies made by the `ILV_STEP`s before `K` = `k`: the value of `P` there (R161). -/
def copiesBefore (k : Nat) : Nat := (List.range k).countP fun i => decide (ilvIndex (BitVec.ofNat 8 i) < 162)

/-- The interleaved stream `d`: `d[PERM[p]] = c[p]` (R210). -/
def dataBit (n : BitVec 50) (j : Nat) : BitVec 1 := codeBit n (permInverse j)

/-- The symbol stream `y`: `y[i] = SYNC[i] + 2*d[i]`, for `i` in 0..161 (R210). -/
def symbolAt (n : BitVec 50) (i : Nat) : BitVec 2 := symbolOf (syncRom.getD i 0) (dataBit n i)

/-- What the host receives of a source word: `(0, y[0]), ..., (161, y[161])` (R33, R210). -/
def frameOf (n : BitVec 50) : List (Byte × BitVec 2) :=
  (List.range 162).map fun i => (BitVec.ofNat 8 i, symbolAt n i)

/-- `encode(req)` (R210): an error and no symbols, or the frame. -/
def transact (q : Req) : Except EncodeError (List (Byte × BitVec 2)) :=
  match pack q with
  | .error e => .error e
  | .ok n => .ok (frameOf n)

/-- Operations one after another, stopping at the first fault or refusal. -/
def runOps (ops : List Instr) (s : State) : Result :=
  match ops with
  | [] => .next s
  | i :: rest =>
    match exec i s with
    | .next t => runOps rest t
    | .fault e => .fault e
    | .refused e => .refused e

/-- The 81 steps of phase `CONV` (R215). -/
def convOps : List Instr := (List.range 81).map fun k => .convStep (BitVec.ofNat 8 k)

/-- The 256 steps of phase `ILV` (R215). -/
def ilvOps : List Instr := (List.range 256).map fun k => .ilvStep (BitVec.ofNat 8 k)

/-- The 162 steps of phase `MERGE` (R215). -/
def mrgOps : List Instr := (List.range 162).map fun k => .mrgStep (BitVec.ofNat 8 k)

/-- How many steps of a successful transaction are left when an operation is the next one (R220). -/
def stepsLeft (i : Instr) : Nat :=
  match i with
  | .reset => 0
  | .accept => 0
  | .callNorm => 667
  | .gridChk => 666
  | .pwrLookup => 665
  | .callPack => 664
  | .gridPack => 663
  | .assemble => 662
  | .convStep k => 661 - k.toNat
  | .ilvStep k => 580 - k.toNat
  | .mrgStep k => 324 - k.toNat
  | .emitStep k => 162 - k.toNat

/-- The number of steps of the whole transaction of a request, its `ACCEPT` included (R220). -/
def transactionSteps (q : Req) : Nat :=
  match pack q with
  | .error .invalidCallsign => 2
  | .error .invalidGrid => 3
  | .error .invalidPower => 4
  | .ok _ => 668

/-- The machine right after reset with a host: the levels on the ports now and at the coming step boundaries. -/
def State.boot (ports : Ports) (host : List Ports) : State := { State.reset with ports := ports, host := host }

/-- The host's bits file: one byte a symbol, in the order received, nothing else (R192). -/
def bitsFile (out : List (Byte × BitVec 2)) : List Byte := out.map fun e => symByteOf e.2

/-- The tone of a symbol, `center + (y - 1.5) * spacing` with `center` = 1500 Hz and `spacing` = 48000/32768 Hz, in
units of 1/512 Hz, in which it is a whole number (R193). -/
def toneFrequency512 (v : BitVec 2) : Int := 1500 * 512 + (2 * (v.toNat : Int) - 3) * 375

/-- The symbol of the host's "altered" variant: `y XOR 1` (R195). -/
def alteredSymbol (v : BitVec 2) : BitVec 2 := v ^^^ 1

end Sys2Proof.Machine
end

