-- ==== Sys2Proof/Safety.lean ====
section
/-! DEFINITION. What a good state and a safe run of CORE are: the invariant that ties every phase of a transaction to
the function `encode` of spec/45_sequencer_and_api.md R210, and runs that never stop. -/

namespace Sys2Proof.Machine

/-- A transaction is under way and nothing has been handed out (R31, R33): `DONE` = 0, `ERR` = 0, `OUT` empty. -/
def State.fresh (s : State) : Prop := s.done = false ∧ s.err = 0 ∧ s.out = []

/-- Outside `CONV` the encoder register is 0 or `0x80000000` (70_reset_and_hazards.md R274). -/
def State.leftoverRegister (s : State) : Prop := s.r = 0 ∨ s.r = 0x80000000

/-- What the first `j` sub-steps of `PACK` have established (40_field_packer.md R101, R105 to R108). -/
def State.packedTo (s : State) (j : Nat) : Prop :=
  (1 ≤ j → callOk s.latch.call s.latch.callLen = true ∧ s.f = normalise s.latch.call s.latch.callLen) ∧
  (2 ≤ j → gridOk s.latch.grid s.latch.gridLen = true) ∧
  (3 ≤ j → pwrOk s.latch.dbm = true ∧ s.pw = powerCode s.latch.dbm) ∧
  (4 ≤ j → s.n1 = n1Of s.f) ∧
  (5 ≤ j → s.m = mOf s.latch.grid)

/-- Elements below `j` of a buffer hold the given stream. -/
def holdsUpTo {w : Nat} (b : Buf w) (j : Nat) (stream : Nat → BitVec w) : Prop :=
  ∀ i < j, bufRead b i = some (stream i)

/-- The result registers of a state in `IDLE`: nothing since reset, or the result of the latched request (R210). -/
def State.resultShown (s : State) : Prop :=
  if s.done then
    match transact s.latch with
    | .error e => s.err = errorCode e ∧ s.out = []
    | .ok y => s.err = 0 ∧ s.out = y
  else s.err = 0 ∧ s.out = []

/-- What holds of a state whose sequencer selects the operation. -/
def State.readyFor (s : State) (i : Instr) : Prop :=
  match i with
  | .reset => False
  | .accept => s.resultShown ∧ s.leftoverRegister
  | .callNorm => s.fresh ∧ s.leftoverRegister ∧ s.packedTo 0
  | .gridChk => s.fresh ∧ s.leftoverRegister ∧ s.packedTo 1
  | .pwrLookup => s.fresh ∧ s.leftoverRegister ∧ s.packedTo 2
  | .callPack => s.fresh ∧ s.leftoverRegister ∧ s.packedTo 3
  | .gridPack => s.fresh ∧ s.leftoverRegister ∧ s.packedTo 4
  | .assemble => s.fresh ∧ s.leftoverRegister ∧ s.packedTo 5
  | .convStep k =>
    s.fresh ∧ pack s.latch = .ok s.n ∧
      s.r = (if k.toNat = 0 then 0 else window s.n (k.toNat - 1)) ∧
      holdsUpTo s.mem.cbuf (2 * k.toNat) (codeBit s.n)
  | .ilvStep k =>
    s.fresh ∧ pack s.latch = .ok s.n ∧ s.leftoverRegister ∧ holdsUpTo s.mem.cbuf 162 (codeBit s.n) ∧
      s.p.toNat = copiesBefore k.toNat ∧
      ∀ i < k.toNat, ilvIndex (BitVec.ofNat 8 i) < 162 →
        bufRead s.mem.dbuf (ilvIndex (BitVec.ofNat 8 i)) = some (dataBit s.n (ilvIndex (BitVec.ofNat 8 i)))
  | .mrgStep k =>
    s.fresh ∧ pack s.latch = .ok s.n ∧ s.leftoverRegister ∧ s.p = 162 ∧
      holdsUpTo s.mem.dbuf 162 (dataBit s.n) ∧ holdsUpTo s.mem.ybuf k.toNat (symbolAt s.n)
  | .emitStep k =>
    s.done = false ∧ s.err = 0 ∧ pack s.latch = .ok s.n ∧ s.leftoverRegister ∧ s.p = 162 ∧
      holdsUpTo s.mem.ybuf 162 (symbolAt s.n) ∧ s.out = (frameOf s.n).take k.toNat

/-- The invariant of CORE: the buffers in canonical form, `P` in its range (R30), `BUSY` equal to `PH != IDLE` (R31),
and a sequencer word that selects an operation (R82) whose state of the pipeline is as the rules give it. -/
structure State.Inv (s : State) : Prop where
  memory : s.mem.wf
  index : s.p.toNat ≤ 162
  busy : s.busy = decide (s.ph ≠ Phase.idle.code)
  ready : ∃ i, decodeSequencer s.ph s.k = .ok i ∧ s.readyFor i

/-- The six characters of a field as a string, leftmost first (R9). -/
def charList (x : Field6) : List Byte := [x.c0, x.c1, x.c2, x.c3, x.c4, x.c5]

/-- The presented string after case folding: the first `len` characters, where the length is one of a string the port
can carry whole (R70: 7 stands for seven or more). -/
def IsPresented (x : Field6) (len : BitVec 3) (u : List Byte) : Prop :=
  len.toNat ≤ 6 ∧ u = ((charList x).take len.toNat).map up

/-- A reading of the presented callsign by the grammar `[A-Z0-9]{1,2}[0-9][A-Z]{1,3}` of R101: the prefix, the digit and
the suffix. -/
def CallsignParse (call : Field6) (len : BitVec 3) (head : List Byte) (digit : Byte) (tail : List Byte) : Prop :=
  IsPresented call len (head ++ digit :: tail) ∧
    1 ≤ head.length ∧ head.length ≤ 2 ∧ (∀ c ∈ head, isAlnum c = true) ∧
    isDigit digit = true ∧
    1 ≤ tail.length ∧ tail.length ≤ 3 ∧ ∀ c ∈ tail, isUpper c = true

/-- A locator `AA00` or `AA00AA` within the alphabets of R105, after case folding. -/
def LocatorParse (grid : Field6) (len : BitVec 3) : Prop :=
  ∃ a b c d rest, IsPresented grid len (a :: b :: c :: d :: rest) ∧
    isAtoR a = true ∧ isAtoR b = true ∧ isDigit c = true ∧ isDigit d = true ∧
    (rest = [] ∨ ∃ x y, rest = [x, y] ∧ isAtoX x = true ∧ isAtoX y = true)

/-- The tap positions of `G0`, as 41_conv_encoder.md R142 lists them. -/
def tapsG0 : List Nat := [0, 4, 6, 8, 9, 12, 14, 20, 22, 23, 25, 28, 29, 30, 31]

/-- The tap positions of `G1`, as R142 lists them. -/
def tapsG1 : List Nat := [0, 1, 2, 6, 10, 11, 12, 13, 16, 21, 22, 26, 29, 30, 31]

/-- The XOR of the bits of a register at the given positions. -/
def xorAt (v : BitVec 32) (taps : List Nat) : Bool := taps.foldl (fun a t => a ^^ v.getLsbD t) false

/-- The closed form of a code bit: the XOR over the taps `t` of `b[k-t]`, with `b` zero before the message (R147). -/
def tapSum (taps : List Nat) (n : BitVec 50) (k : Nat) : Bool :=
  taps.foldl (fun a t => a ^^ (decide (t ≤ k) && inputBit n (k - t))) false

/-- Two payloads with the same lengths and power whose characters below the lengths are the same up to case. -/
def SamePayload (a b : Req) : Prop :=
  a.callLen = b.callLen ∧ a.gridLen = b.gridLen ∧ a.dbm = b.dbm ∧
    ((charList a.call).take a.callLen.toNat).map up = ((charList b.call).take b.callLen.toNat).map up ∧
    ((charList a.grid).take a.gridLen.toNat).map up = ((charList b.grid).take b.gridLen.toNat).map up

/-- A state a run from reset reaches, whatever levels the host drives at the step boundaries. -/
def State.Reachable (t : State) : Prop :=
  ∃ (ports : Ports) (host : List Ports) (n : Nat), Host.Core.run core n (State.boot ports host) = .next t

/-- A transaction from its `ACCEPT` to its end, `n` steps later (R221): the state takes a request, `CORE` is busy and not
reset at every step boundary between, and it is back in `IDLE`. The host may do anything else meanwhile. -/
def State.transactionTo (s : State) (n : Nat) (t : State) : Prop :=
  s.ph = 0 ∧ s.ports.rst = false ∧ s.ports.reqValid = true ∧ 1 ≤ n ∧
    Host.Core.run core n s = .next t ∧ t.ph = 0 ∧
    ∀ j, 1 ≤ j → j < n → ∃ u : State, Host.Core.run core j s = .next u ∧ u.ph ≠ 0 ∧ u.ports.rst = false

/-- A run that never faults and is never refused. -/
def State.runsSafely (s : State) : Prop := ∀ n, ∃ t : State, Host.Core.run core n s = .next t

end Sys2Proof.Machine
end

