-- ==== Sys2Proof/Certificates/Slice0/Obligations.lean ====
section
/-! DEFINITION. The statements for the provers. Each docstring names the rule of spec/ it formalises. -/

open Sys2Proof Sys2Proof.Machine

/-! ### Encoding -/

/-- Words written out from the operation map (spec/30_encoding.md R80; 95_test_vectors.md T30-5) decode to the
operations they stand for, and the reserved words of T30-5 to none. -/
def Obligations.WordsOfTheOperationMapDecode : Prop :=
  decodeTableWord 16 0x000 = some .accept ∧ decodeTableWord 16 0x100 = some .callNorm ∧
  decodeTableWord 16 0x101 = some .gridChk ∧ decodeTableWord 16 0x102 = some .pwrLookup ∧
  decodeTableWord 16 0x103 = some .callPack ∧ decodeTableWord 16 0x104 = some .gridPack ∧
  decodeTableWord 16 0x105 = some .assemble ∧ decodeTableWord 16 0x250 = some (.convStep 80) ∧
  decodeTableWord 16 0x3FF = some (.ilvStep 255) ∧ decodeTableWord 16 0x4A1 = some (.mrgStep 161) ∧
  decodeTableWord 16 0x5A1 = some (.emitStep 161) ∧ decodeTableWord 0 0 = some .reset ∧
  decodeTableWord 16 0x251 = none ∧ decodeTableWord 16 0x4A2 = none ∧ decodeTableWord 16 0x106 = none ∧
  decodeTableWord 16 0x001 = none ∧ decodeTableWord 16 0x600 = none ∧ decodeTableWord 16 0x7FF = none

/-- Decoding the encoding of any well-formed operation gives it back with its operand, and a word that decodes to an
operation other than `RESET` is that operation's encoding (R80). The place of `rst` in the word is the model's choice
(notes/assumptions/7.md). -/
def Obligations.DecodeInvertsEncode : Prop :=
  (∀ i : Instr, i.wf = true → decode (encode i) = .ok i) ∧
  (∀ (w : BitVec 12) (i : Instr), decode w = .ok i → i.wf = true ∧ (i ≠ .reset → encode i = w))

/-- The operation map by match and mask (R80): with `rst` = 0 the operation the decoder selects is the one whose row
selects the sequencer word, with `K` as its operand; with `rst` = 1 it is `RESET`. -/
def Obligations.OperationIsTheOneItsRowSelects : Prop :=
  (∀ (ph : BitVec 3) (k : Byte) (i : Instr),
    decode (selectionWord false ph k) = .ok i ↔
      i ≠ .reset ∧ i.row.selects (ph ++ k) = true ∧
        match i with
        | .convStep j | .ilvStep j | .mrgStep j | .emitStep j => j = k
        | _ => True) ∧
  ∀ (ph : BitVec 3) (k : Byte), decode (selectionWord true ph k) = .ok .reset

/-- R82: the reserved sequencer words have no step while `rst` = 0, every other word has a decoded operation, and no
run from reset reaches a reserved word, whatever the host drives. -/
def Obligations.ReservedWordsAreRefusedAndUnreachable : Prop :=
  (∀ s : State, s.ports.rst = false →
    ((s.ph = 0 ∧ s.k ≠ 0) ∨ (s.ph = 1 ∧ 6 ≤ s.k.toNat) ∨ (s.ph = 2 ∧ 81 ≤ s.k.toNat) ∨
      ((s.ph = 4 ∨ s.ph = 5) ∧ 162 ≤ s.k.toNat) ∨ s.ph = 6 ∨ s.ph = 7 ↔
      ∃ kind, step s = .refused (.reservedWord kind))) ∧
  ∀ t : State, t.Reachable →
    ¬ ((t.ph = 0 ∧ t.k ≠ 0) ∨ (t.ph = 1 ∧ 6 ≤ t.k.toNat) ∨ (t.ph = 2 ∧ 81 ≤ t.k.toNat) ∨
      ((t.ph = 4 ∨ t.ph = 5) ∧ 162 ≤ t.k.toNat) ∨ t.ph = 6 ∨ t.ph = 7)

/-- R70: the 110-bit record of a payload gives the payload back, every 110-bit value is the record of its payload, and
the fields stand where the table puts them. -/
def Obligations.RequestRecordRoundTrips : Prop :=
  (∀ q : Req, Req.ofBits q.toBits = q) ∧ (∀ b : BitVec 110, (Req.ofBits b).toBits = b) ∧
  ∀ q : Req,
    q.toBits.extractLsb' 107 3 = q.callLen ∧ q.toBits.extractLsb' 99 8 = q.call.c0 ∧
    q.toBits.extractLsb' 91 8 = q.call.c1 ∧ q.toBits.extractLsb' 83 8 = q.call.c2 ∧
    q.toBits.extractLsb' 75 8 = q.call.c3 ∧ q.toBits.extractLsb' 67 8 = q.call.c4 ∧
    q.toBits.extractLsb' 59 8 = q.call.c5 ∧ q.toBits.extractLsb' 56 3 = q.gridLen ∧
    q.toBits.extractLsb' 48 8 = q.grid.c0 ∧ q.toBits.extractLsb' 40 8 = q.grid.c1 ∧
    q.toBits.extractLsb' 32 8 = q.grid.c2 ∧ q.toBits.extractLsb' 24 8 = q.grid.c3 ∧
    q.toBits.extractLsb' 16 8 = q.grid.c4 ∧ q.toBits.extractLsb' 8 8 = q.grid.c5 ∧
    q.toBits.extractLsb' 0 8 = q.dbm

/-! ### The step -/

/-- A step runs the decoded operation (R10, R80): the operation the selection word decodes to is well formed, and the
step is its outcome, with the host's move added to a next state (the model's choice, notes/assumptions/5.md): the
ports take the next levels the host drives, or hold, and no other field changes. -/
def Obligations.StepRunsTheDecodedOperation : Prop :=
  (∀ (s : State) (i : Instr), decode (selectionWord s.ports.rst s.ph s.k) = .ok i →
    i.wf = true ∧
    (∀ u, exec i s = .next u → step s = .next u.hostMove) ∧
    (∀ e, exec i s = .fault e → step s = .fault e) ∧
    (∀ e, exec i s = .refused e → step s = .refused e)) ∧
  ∀ u : State,
    (u.host = [] → u.hostMove = u) ∧
    ∀ p ps, u.host = p :: ps → u.hostMove = { u with ports := p, host := ps }

/-- Exactly when an operation stops: at an access outside its space, at a buffer element not written since reset (R51,
R52), and when `P` is not 162 at the end of `ILV` (R250; 93_implementation_defined.md U4). No operation is refused. That an
`EMIT_STEP` that waits reads no element, and so does not fault, is the model's choice (notes/assumptions/21.md). -/
def Obligations.OperationsStopExactlyAtForbiddenAccesses : Prop :=
  ∀ (i : Instr) (s : State),
    (∀ r, exec i s ≠ .refused r) ∧
    ∀ e : Fault, exec i s = .fault e ↔
      match i with
      | .convStep k => 81 ≤ k.toNat ∧ e = .indexOutOfRange .cbuf (2 * k.toNat)
      | .ilvStep k =>
        (ilvIndex k < 162 ∧ 162 ≤ s.p.toNat ∧ e = .indexOutOfRange .cbuf s.p.toNat) ∨
        (ilvIndex k < 162 ∧ s.p.toNat < 162 ∧ bufRead s.mem.cbuf s.p.toNat = none ∧
          e = .unwrittenElement .cbuf s.p.toNat) ∨
        (k = 255 ∧ s.p ≠ 162 ∧ e = .interleaverCount s.p)
      | .mrgStep k =>
        (162 ≤ k.toNat ∧ e = .indexOutOfRange .syncRom k.toNat) ∨
        (k.toNat < 162 ∧ bufRead s.mem.dbuf k.toNat = none ∧ e = .unwrittenElement .dbuf k.toNat)
      | .emitStep k =>
        s.ports.symReady = true ∧
          ((162 ≤ k.toNat ∧ e = .indexOutOfRange .ybuf k.toNat) ∨
            (k.toNat < 162 ∧ bufRead s.mem.ybuf k.toNat = none ∧ e = .unwrittenElement .ybuf k.toNat))
      | _ => False

/-- R215: the order of phases. While `rst` = 0 every step leads from an operation to the one the rule gives, and
`rst` = 1 leads to `(IDLE, 0)`; there is no other transition, but that CORE waits in `IDLE` for a request (R218) and in
`EMIT` for the host (R278). That a wait is a next state is the model's choice (notes/assumptions/6.md). -/
def Obligations.PhasesFollowTheLinearOrder : Prop :=
  ∀ s t : State, step s = .next t →
    (s.ports.rst = true → t.ph = 0 ∧ t.k = 0) ∧
    (s.ports.rst = false →
      (s.ph = 0 ∧ s.k = 0 ∧ s.ports.reqValid = false ∧ t.ph = 0 ∧ t.k = 0) ∨
      (s.ph = 0 ∧ s.k = 0 ∧ s.ports.reqValid = true ∧ t.ph = 1 ∧ t.k = 0) ∨
      (s.ph = 1 ∧ s.k.toNat ≤ 2 ∧ t.ph = 0 ∧ t.k = 0 ∧ t.err ≠ 0) ∨
      (s.ph = 1 ∧ s.k.toNat ≤ 4 ∧ t.ph = 1 ∧ t.k = s.k + 1) ∨
      (s.ph = 1 ∧ s.k = 5 ∧ t.ph = 2 ∧ t.k = 0) ∨
      (s.ph = 2 ∧ s.k.toNat < 80 ∧ t.ph = 2 ∧ t.k = s.k + 1) ∨
      (s.ph = 2 ∧ s.k = 80 ∧ t.ph = 3 ∧ t.k = 0) ∨
      (s.ph = 3 ∧ s.k.toNat < 255 ∧ t.ph = 3 ∧ t.k = s.k + 1) ∨
      (s.ph = 3 ∧ s.k = 255 ∧ t.ph = 4 ∧ t.k = 0) ∨
      (s.ph = 4 ∧ s.k.toNat < 161 ∧ t.ph = 4 ∧ t.k = s.k + 1) ∨
      (s.ph = 4 ∧ s.k = 161 ∧ t.ph = 5 ∧ t.k = 0) ∨
      (s.ph = 5 ∧ s.k.toNat ≤ 161 ∧ s.ports.symReady = false ∧ t.ph = 5 ∧ t.k = s.k) ∨
      (s.ph = 5 ∧ s.k.toNat < 161 ∧ s.ports.symReady = true ∧ t.ph = 5 ∧ t.k = s.k + 1) ∨
      (s.ph = 5 ∧ s.k = 161 ∧ s.ports.symReady = true ∧ t.ph = 0 ∧ t.k = 0))

/-! ### Frames -/

/-- The access table (spec/10_state.md R42): what each operation may write; every field not named is as before. The
input ports and the host's coming moves are written by no operation. -/
def Obligations.OperationsWriteOnlyTheirRegisters : Prop :=
  ∀ s t : State,
    (exec .reset s = .next t → t.ports = s.ports ∧ t.host = s.host) ∧
    (exec .accept s = .next t →
      t = { s with latch := t.latch, ph := t.ph, k := t.k, busy := t.busy, done := t.done, err := t.err, out := t.out }) ∧
    (exec .callNorm s = .next t →
      t = { s with f := t.f, ph := t.ph, k := t.k, busy := t.busy, done := t.done, err := t.err }) ∧
    (exec .gridChk s = .next t →
      t = { s with ph := t.ph, k := t.k, busy := t.busy, done := t.done, err := t.err }) ∧
    (exec .pwrLookup s = .next t →
      t = { s with pw := t.pw, ph := t.ph, k := t.k, busy := t.busy, done := t.done, err := t.err }) ∧
    (exec .callPack s = .next t → t = { s with n1 := t.n1, ph := t.ph, k := t.k }) ∧
    (exec .gridPack s = .next t → t = { s with m := t.m, ph := t.ph, k := t.k }) ∧
    (exec .assemble s = .next t → t = { s with n := t.n, r := t.r, ph := t.ph, k := t.k }) ∧
    ∀ k : Byte,
      (exec (.convStep k) s = .next t →
        t = { s with r := t.r, p := t.p, ph := t.ph, k := t.k, mem := { s.mem with cbuf := t.mem.cbuf } } ∧
          (k ≠ 80 → t.p = s.p ∧ t.ph = s.ph)) ∧
      (exec (.ilvStep k) s = .next t →
        t = { s with p := t.p, ph := t.ph, k := t.k, mem := { s.mem with dbuf := t.mem.dbuf } } ∧
          (k ≠ 255 → t.ph = s.ph)) ∧
      (exec (.mrgStep k) s = .next t →
        t = { s with ph := t.ph, k := t.k, mem := { s.mem with ybuf := t.mem.ybuf } } ∧
          (k ≠ 161 → t.ph = s.ph)) ∧
      (exec (.emitStep k) s = .next t →
        t = { s with out := t.out, busy := t.busy, done := t.done, ph := t.ph, k := t.k } ∧
          (k ≠ 161 → t.busy = s.busy ∧ t.done = s.done ∧ t.ph = s.ph))

/-- Every element of memory is as before except those an operation stores to (R52, R65): `CBUF[2K]` and `CBUF[2K+1]`,
`DBUF[rev8(K)]` when below 162, `YBUF[K]`; `RESET` leaves no element written (R41); no other operation stores. -/
def Obligations.OperationsStoreOnlyToTheirElements : Prop :=
  ∀ s t : State,
    (∀ i ∈ [Instr.accept, .callNorm, .gridChk, .pwrLookup, .callPack, .gridPack, .assemble],
      exec i s = .next t → t.mem = s.mem) ∧
    (exec .reset s = .next t → ∀ j,
      bufRead t.mem.cbuf j = none ∧ bufRead t.mem.dbuf j = none ∧ bufRead t.mem.ybuf j = none) ∧
    ∀ k : Byte,
      (exec (.convStep k) s = .next t →
        (∀ j, j ≠ convIndex0 k → j ≠ convIndex1 k → bufRead t.mem.cbuf j = bufRead s.mem.cbuf j) ∧
        t.mem.dbuf = s.mem.dbuf ∧ t.mem.ybuf = s.mem.ybuf) ∧
      (exec (.ilvStep k) s = .next t →
        (∀ j, ¬ (j = ilvIndex k ∧ ilvIndex k < 162) → bufRead t.mem.dbuf j = bufRead s.mem.dbuf j) ∧
        t.mem.cbuf = s.mem.cbuf ∧ t.mem.ybuf = s.mem.ybuf) ∧
      (exec (.mrgStep k) s = .next t →
        (∀ j, j ≠ k.toNat → bufRead t.mem.ybuf j = bufRead s.mem.ybuf j) ∧
        t.mem.cbuf = s.mem.cbuf ∧ t.mem.dbuf = s.mem.dbuf) ∧
      (exec (.emitStep k) s = .next t → t.mem = s.mem)

/-- Every step keeps the buffers in canonical form: indices strictly rising, each below 162 (R50). -/
def Obligations.StepKeepsMemoryCanonical : Prop :=
  ∀ s t : State, s.mem.wf → step s = .next t → t.mem.wf

/-! ### Sequencer: ACCEPT, waiting, RESET -/

/-- R211: `ACCEPT`, selected at `(IDLE, 0)`, takes the whole payload in one step and starts a transaction, with nothing
checked; while `PH` is not `IDLE` and `rst` = 0 no step touches the latch, so a request presented then is neither taken
nor queued. While `req_valid` = 0 nothing changes (R218); that this wait is a next state is the model's choice
(notes/assumptions/6.md). -/
def Obligations.AcceptTakesThePayloadOnce : Prop :=
  decodeSequencer 0 0 = .ok .accept ∧
  (∀ s : State, s.ports.reqValid = true →
    exec .accept s = .next
      { s with latch := s.ports.req, busy := true, done := false, err := 0, out := [], ph := 1, k := 0 }) ∧
  (∀ s : State, s.ports.reqValid = false → exec .accept s = .next s) ∧
  ∀ s t : State, s.ports.rst = false → s.ph ≠ 0 → step s = .next t → t.latch = s.latch

/-- R218, R278: a waiting CORE keeps its whole state for as long as the host lets it wait, in `IDLE` without a request
and in `EMIT` without `sym_ready`. That a wait is a next state, also where `YBUF[K]` is not written, is the model's
choice (notes/assumptions/6.md, 21.md). -/
def Obligations.WaitingChangesNothing : Prop :=
  ∀ (s : State) (n : Nat), s.ports.rst = false → s.host = [] →
    (s.ph = 0 ∧ s.k = 0 ∧ s.ports.reqValid = false) ∨
      (s.ph = 5 ∧ s.k.toNat ≤ 161 ∧ s.ports.symReady = false) →
    Host.Core.run core n s = .next s

/-- R270: `RESET` takes every register the rule gives a value to that value, from any state and whatever the sequencer
holds, reserved words included, with priority over the operation it would select; no buffer element is then written;
and while `rst` stays 1 CORE stays there. The state right after reset has the same values (R41). That no buffer element
is written is the model's choice among the two R270 allows (notes/assumptions/19.md). -/
def Obligations.ResetFromAnyState : Prop :=
  State.reset.ph = 0 ∧ State.reset.k = 0 ∧ State.reset.p = 0 ∧ State.reset.r = 0 ∧ State.reset.busy = false ∧
  State.reset.done = false ∧ State.reset.err = 0 ∧ State.reset.out = [] ∧
  ∀ s : State, ∃ t : State,
    exec .reset s = .next t ∧
    t.ph = 0 ∧ t.k = 0 ∧ t.p = 0 ∧ t.r = 0 ∧ t.busy = false ∧ t.done = false ∧ t.err = 0 ∧ t.out = [] ∧
    (∀ j, bufRead t.mem.cbuf j = none ∧ bufRead t.mem.dbuf j = none ∧ bufRead t.mem.ybuf j = none) ∧
    t.ports = s.ports ∧ t.host = s.host ∧
    (s.ports.rst = true → step s = .next t.hostMove ∧ t.reqReady = true) ∧
    (s.ports.rst = true → s.host = [] → ∀ n, Host.Core.run core (n + 1) s = .next t)

/-- R212: entering a phase is part of the last step of the phase before it: it clears `K`, and `R` for `CONV`, `P` for
`ILV`; entering any other phase writes neither `R` nor `P`. -/
def Obligations.EnteringAPhaseClearsItsCounters : Prop :=
  ∀ s t : State, s.ports.rst = false → step s = .next t → t.ph ≠ s.ph →
    t.k = 0 ∧ (t.ph = 2 → t.r = 0 ∧ t.p = s.p) ∧ (t.ph = 3 → t.p = 0) ∧
      (t.ph ≠ 2 → t.ph ≠ 3 → t.r = s.r ∧ t.p = s.p)

/-- R217: the two ends of a transaction. A step that leads a busy CORE to `IDLE` without a reset is a success out of
`EMIT` at `K` = 161, with `ERR` as `ACCEPT` left it, or an error out of `PACK`; either way it writes `BUSY` = 0 and
`DONE` = 1 and leaves all other state as it is. The ports and the host's moves are the host's. -/
def Obligations.TransactionsEndInOneOfTwoWays : Prop :=
  ∀ s t : State, s.ports.rst = false → s.ph ≠ 0 → step s = .next t → t.ph = 0 →
    t.busy = false ∧ t.done = true ∧ t.k = 0 ∧
    ((s.ph = 5 ∧ s.k = 161 ∧ s.ports.symReady = true ∧ (s.Inv → t.err = 0) ∧
        ∃ v, bufRead s.mem.ybuf 161 = some v ∧
          t = { s with busy := false, done := true, out := s.out ++ [(161, v)], ph := 0, k := 0, ports := t.ports,
                       host := t.host }) ∨
      (s.ph = 1 ∧ ∃ e : EncodeError,
        t = { s with busy := false, done := true, err := errorCode e, ph := 0, k := 0, ports := t.ports,
                     host := t.host }))

/-! ### field_packer -/

/-- R101: `CALL_NORM`, selected at `(PACK, 0)`, accepts exactly the callsigns of the grammar `[A-Z0-9]{1,2}[0-9][A-Z]{1,3}` after case folding,
and writes the field with the digit at position 2 and spaces around; otherwise it raises `InvalidCallsign`, with `F`
not written. -/
def Obligations.CallNormFollowsTheGrammar : Prop :=
  decodeSequencer 1 0 = .ok .callNorm ∧
  (∀ (s : State) (head : List Byte) (digit : Byte) (tail : List Byte),
    CallsignParse s.latch.call s.latch.callLen head digit tail →
    ∃ f : Field6,
      charList f =
        List.replicate (2 - head.length) 0x20 ++ head ++ digit :: tail ++ List.replicate (3 - tail.length) 0x20 ∧
      exec .callNorm s = .next { s with f := f, ph := 1, k := 1 }) ∧
  ∀ s : State, (¬ ∃ head digit tail, CallsignParse s.latch.call s.latch.callLen head digit tail) →
    exec .callNorm s = .next { s with err := 2, busy := false, done := true, ph := 0, k := 0 }

/-- The shape of the normalised field (spec/10_state.md R22), for every `CALL_NORM` that does not raise. -/
def Obligations.NormalisedFieldHasItsShape : Prop :=
  ∀ s t : State, exec .callNorm s = .next t → t.ph = 1 →
    (t.f.c0 = 0x20 ∨ isDigit t.f.c0 = true ∨ isUpper t.f.c0 = true) ∧
    (isDigit t.f.c1 = true ∨ isUpper t.f.c1 = true) ∧
    isDigit t.f.c2 = true ∧ isUpper t.f.c3 = true ∧
    (isUpper t.f.c4 = true ∨ t.f.c4 = 0x20) ∧ (isUpper t.f.c5 = true ∨ t.f.c5 = 0x20) ∧
    (isUpper t.f.c5 = true → isUpper t.f.c4 = true)

/-- R105: `GRID_CHK`, selected at `(PACK, 1)`, goes on exactly for locators `AA00` or `AA00AA` within their alphabets after case folding, and
writes nothing but the sequencer; otherwise it raises `InvalidGrid`. -/
def Obligations.GridChkAcceptsLocators : Prop :=
  decodeSequencer 1 1 = .ok .gridChk ∧
  (∀ s : State, LocatorParse s.latch.grid s.latch.gridLen → exec .gridChk s = .next { s with ph := 1, k := 2 }) ∧
  ∀ s : State, ¬ LocatorParse s.latch.grid s.latch.gridLen →
    exec .gridChk s = .next { s with err := 3, busy := false, done := true, ph := 0, k := 0 }

/-- R106: `PWR_LOOKUP`, selected at `(PACK, 2)`, accepts exactly the 28 signed values and writes `p + 64`, with no rounding and no clamping;
otherwise it raises `InvalidPower`, with `PW` not written. -/
def Obligations.PwrLookupAcceptsTheTwentyEightPowers : Prop :=
  decodeSequencer 1 2 = .ok .pwrLookup ∧
  ∀ s : State,
    (s.latch.dbm.toInt ∈ ([-30, -27, -23, -20, -17, -13, -10, -7, -3, 0, 3, 7, 10, 13, 17, 20, 23, 27, 30, 33, 37, 40,
        43, 47, 50, 53, 57, 60] : List Int) →
      ∃ pw : BitVec 7, (pw.toNat : Int) = s.latch.dbm.toInt + 64 ∧
        exec .pwrLookup s = .next { s with pw := pw, ph := 1, k := 3 }) ∧
    (s.latch.dbm.toInt ∉ ([-30, -27, -23, -20, -17, -13, -10, -7, -3, 0, 3, 7, 10, 13, 17, 20, 23, 27, 30, 33, 37, 40,
        43, 47, 50, 53, 57, 60] : List Int) →
      exec .pwrLookup s = .next { s with err := 4, busy := false, done := true, ph := 0, k := 0 })

/-- R107: `CALL_PACK`, selected at `(PACK, 3)`, writes the exact mixed-radix number of the six character values, for
every field whose characters have values in the alphabets of their positions; every field `CALL_NORM` can produce is
one, and its number is at most 262 176 830. -/
def Obligations.CallPackIsTheMixedRadixNumber : Prop :=
  decodeSequencer 1 3 = .ok .callPack ∧
  (∀ s t : State, exec .callNorm s = .next t → t.ph = 1 →
    ∃ v0 v1 v2 v3 v4 v5 : Nat,
      v37 t.f.c0 = some v0 ∧ v37 t.f.c1 = some v1 ∧ v10 t.f.c2 = some v2 ∧
      v27 t.f.c3 = some v3 ∧ v27 t.f.c4 = some v4 ∧ v27 t.f.c5 = some v5 ∧
      v0 ≤ 36 ∧ v1 ≤ 35 ∧ v2 ≤ 9 ∧ v3 ≤ 25 ∧ v4 ≤ 26 ∧ v5 ≤ 26 ∧
      ((((v0 * 36 + v1) * 10 + v2) * 27 + v3) * 27 + v4) * 27 + v5 ≤ 262176830) ∧
  ∀ (s : State) (v0 v1 v2 v3 v4 v5 : Nat),
    v37 s.f.c0 = some v0 → v37 s.f.c1 = some v1 → v10 s.f.c2 = some v2 →
    v27 s.f.c3 = some v3 → v27 s.f.c4 = some v4 → v27 s.f.c5 = some v5 →
    ∃ n1 : BitVec 28,
      n1.toNat = ((((v0 * 36 + v1) * 10 + v2) * 27 + v3) * 27 + v4) * 27 + v5 ∧
      exec .callPack s = .next { s with n1 := n1, ph := 1, k := 4 }

/-- R108: `GRID_PACK`, selected at `(PACK, 4)`, writes `(179 - 10*g0 - g2)*180 + 10*g1 + g3` of the first four
characters, exactly, and it is at most 32 399; a locator `GRID_CHK` passes has the four values. -/
def Obligations.GridPackIsTheInvertedLocator : Prop :=
  decodeSequencer 1 4 = .ok .gridPack ∧
  (∀ s t : State, exec .gridChk s = .next t → t.ph = 1 →
    ∃ g0 g1 g2 g3 : Nat,
      vAR (up s.latch.grid.c0) = some g0 ∧ vAR (up s.latch.grid.c1) = some g1 ∧
      v10 s.latch.grid.c2 = some g2 ∧ v10 s.latch.grid.c3 = some g3 ∧
      g0 ≤ 17 ∧ g1 ≤ 17 ∧ g2 ≤ 9 ∧ g3 ≤ 9) ∧
  ∀ (s : State) (g0 g1 g2 g3 : Nat),
    vAR (up s.latch.grid.c0) = some g0 → vAR (up s.latch.grid.c1) = some g1 →
    v10 s.latch.grid.c2 = some g2 → v10 s.latch.grid.c3 = some g3 →
    ∃ m : BitVec 15,
      (m.toNat : Int) = (179 - 10 * (g0 : Int) - g2) * 180 + 10 * g1 + g3 ∧ m.toNat ≤ 32399 ∧
      exec .gridPack s = .next { s with m := m, ph := 1, k := 5 }

/-- The two packings complete in every state: where a character has no value in its alphabet the packed value is free
and every other effect happens (the model's choice, notes/assumptions/8.md and 9.md). -/
def Obligations.PackingAlwaysCompletes : Prop :=
  (∀ s : State, ∃ n1 : BitVec 28, exec .callPack s = .next { s with n1 := n1, ph := 1, k := 4 }) ∧
  ∀ s : State, ∃ m : BitVec 15, exec .gridPack s = .next { s with m := m, ph := 1, k := 5 }

/-- R109: `ASSEMBLE`, selected at `(PACK, 5)`, places `N1`, `M` and `PW` side by side in `N`, and enters `CONV`, which clears `R` and `K`. -/
def Obligations.AssemblePlacesTheThreeFields : Prop :=
  decodeSequencer 1 5 = .ok .assemble ∧
  ∀ s : State, ∃ n : BitVec 50,
    exec .assemble s = .next { s with n := n, ph := 2, k := 0, r := 0 } ∧
    n.toNat = s.n1.toNat * 2 ^ 22 + (s.m.toNat * 128 + s.pw.toNat) ∧
    n.extractLsb' 22 28 = s.n1 ∧ n.extractLsb' 7 15 = s.m ∧ n.extractLsb' 0 7 = s.pw

/-- R110 (an inference the spec marks as its own): the ranges of the packed fields of an accepted request. -/
def Obligations.PackedFieldsStayInRange : Prop :=
  ∀ (q : Req) (n : BitVec 50), pack q = .ok n →
    (n.extractLsb' 22 28).toNat ≤ 262176830 ∧ (n.extractLsb' 7 15).toNat ≤ 32399 ∧
    34 ≤ (n.extractLsb' 0 7).toNat ∧ (n.extractLsb' 0 7).toNat ≤ 124

/-- R111 (an inference the spec marks as its own): two accepted requests have the same source word exactly when they
have the same normalised callsign, the same first four grid characters up to case, and the same power. -/
def Obligations.SourceWordDecomposesUniquely : Prop :=
  ∀ (q q' : Req) (n n' : BitVec 50), pack q = .ok n → pack q' = .ok n' →
    (n = n' ↔
      normalise q.call q.callLen = normalise q'.call q'.callLen ∧
      ((charList q.grid).take 4).map up = ((charList q'.grid).take 4).map up ∧ q.dbm = q'.dbm)

/-- R246: a bad request ends with exactly one error, the first in the order callsign, grid, power, and `rst` has
priority over every operation, one that raises included. R247: the error ends the transaction in `IDLE` with `DONE` = 1,
`BUSY` = 0 and no symbol handed out. R220 (informative, an inference the spec marks as its own): the step counts 2, 3
and 4. The ports hold meanwhile (`host` empty). -/
def Obligations.FirstFailingCheckIsReported : Prop :=
  (∀ s u : State, s.ports.rst = true → exec .reset s = .next u → step s = .next u.hostMove ∧ u.err = 0) ∧
  ∀ s : State, s.ph = 0 → s.k = 0 → s.ports.rst = false → s.ports.reqValid = true → s.host = [] →
    (callOk s.ports.req.call s.ports.req.callLen = false →
      ∃ t : State, Host.Core.run core 2 s = .next t ∧
        t.err = 2 ∧ t.done = true ∧ t.busy = false ∧ t.out = [] ∧ t.ph = 0 ∧ t.k = 0) ∧
    (callOk s.ports.req.call s.ports.req.callLen = true → gridOk s.ports.req.grid s.ports.req.gridLen = false →
      ∃ t : State, Host.Core.run core 3 s = .next t ∧
        t.err = 3 ∧ t.done = true ∧ t.busy = false ∧ t.out = [] ∧ t.ph = 0 ∧ t.k = 0) ∧
    (callOk s.ports.req.call s.ports.req.callLen = true → gridOk s.ports.req.grid s.ports.req.gridLen = true →
      pwrOk s.ports.req.dbm = false →
      ∃ t : State, Host.Core.run core 4 s = .next t ∧
        t.err = 4 ∧ t.done = true ∧ t.busy = false ∧ t.out = [] ∧ t.ph = 0 ∧ t.k = 0)

/-! ### convolutional_encoder_r1_2_k32 -/

/-- R141: `parity` is the XOR of all 32 bits, and the number of 1 bits mod 2. -/
def Obligations.ParityCountsTheOneBits : Prop :=
  ∀ v : BitVec 32, parity v = xorAt v (List.range 32) ∧ parity v = decide (((List.range 32).countP fun t => v.getLsbD t) % 2 = 1)

/-- R144: `CONV_STEP`, selected at `(CONV, K)` for `K` in 0..80, shifts the input bit `b[K]` in at bit 0, drops bit 31, and writes the XOR of the register after
the shift over the tap positions R142 lists for `G0` to `CBUF[2K]` and for `G1` to `CBUF[2K+1]`; then it goes on to
`K + 1`, or at `K` = 80 to `(ILV, 0)` with `P` = 0. -/
def Obligations.ConvStepShiftsAndWritesTwoParities : Prop :=
  ∀ (s : State) (k : Byte), k.toNat ≤ 80 →
    decodeSequencer 2 k = .ok (.convStep k) ∧
    ∃ (rn : BitVec 32) (c : Buf 1),
      rn.getLsbD 0 = (if k.toNat ≤ 49 then s.n.getLsbD (49 - k.toNat) else false) ∧
      (∀ t < 31, rn.getLsbD (t + 1) = s.r.getLsbD t) ∧
      bufRead c (2 * k.toNat) = some (BitVec.ofBool (xorAt rn tapsG0)) ∧
      bufRead c (2 * k.toNat + 1) = some (BitVec.ofBool (xorAt rn tapsG1)) ∧
      (∀ j, j ≠ 2 * k.toNat → j ≠ 2 * k.toNat + 1 → bufRead c j = bufRead s.mem.cbuf j) ∧
      (k ≠ 80 → exec (.convStep k) s = .next { s with r := rn, mem := { s.mem with cbuf := c }, k := k + 1 }) ∧
      (k = 80 → exec (.convStep k) s = .next
        { s with r := rn, mem := { s.mem with cbuf := c }, ph := 3, k := 0, p := 0 })

/-- R146, R147, R148: the 81 steps from `R` = 0 fill `CBUF[0..161]` with the closed form, for every source word, leave
`N[0]` in bit 31 of `R` and zeros elsewhere, and enter `ILV`. -/
def Obligations.ConvStageWritesTheTapSums : Prop :=
  ∀ s : State, s.r = 0 → ∃ t : State,
    runOps convOps s = .next t ∧ t.ph = 3 ∧ t.k = 0 ∧ t.p = 0 ∧
    t.r.toNat = (if s.n.getLsbD 0 then 2 ^ 31 else 0) ∧
    t.mem.dbuf = s.mem.dbuf ∧ t.mem.ybuf = s.mem.ybuf ∧ t.n = s.n ∧
    ∀ k < 81,
      bufRead t.mem.cbuf (2 * k) = some (BitVec.ofBool (tapSum tapsG0 s.n k)) ∧
      bufRead t.mem.cbuf (2 * k + 1) = some (BitVec.ofBool (tapSum tapsG1 s.n k))

/-- R147 (an inference the spec marks as its own): the stage is linear over GF(2). -/
def Obligations.ConvStageIsLinear : Prop :=
  ∀ s s' u t t' v : State, s.r = 0 → s'.r = 0 → u.r = 0 → u.n = s.n ^^^ s'.n →
    runOps convOps s = .next t → runOps convOps s' = .next t' → runOps convOps u = .next v →
    ∀ j < 162, ∃ a b : BitVec 1,
      bufRead t.mem.cbuf j = some a ∧ bufRead t'.mem.cbuf j = some b ∧ bufRead v.mem.cbuf j = some (a ^^^ b)

/-- R148, R274: the one value a finished message can leave in `R` changes no code bit of the next one. -/
def Obligations.LeftoverRegisterChangesNoCodeBit : Prop :=
  ∀ s t u : State, s.r = 0 → runOps convOps s = .next t →
    runOps convOps { s with r := 0x80000000 } = .next u →
    ∀ j < 162, bufRead u.mem.cbuf j = bufRead t.mem.cbuf j

/-! ### bit_reverse_interleaver -/

/-- R160: bit `b` of `rev8(v)` is bit `7-b` of `v`, and `rev8` is its own inverse. -/
def Obligations.Rev8ReversesTheBits : Prop :=
  ∀ v : Byte, (∀ b < 8, (rev8 v).getLsbD b = v.getLsbD (7 - b)) ∧ rev8 (rev8 v) = v

/-- R161: `ILV_STEP` copies `CBUF[P]` to `DBUF[rev8(K)]` and increments `P` when `rev8(K)` is below 162, else makes no
access; then it goes on to `K + 1`, or at `K` = 255 with all 162 bits copied to `(MERGE, 0)`. -/
def Obligations.IlvStepCopiesOrSkips : Prop :=
  (∀ (s : State) (k : Byte) (c : BitVec 1), (rev8 k).toNat < 162 → s.p.toNat < 162 →
    bufRead s.mem.cbuf s.p.toNat = some c →
    k ≠ 255 ∧ ∃ d : Buf 1,
      bufRead d (rev8 k).toNat = some c ∧
      (∀ j, j ≠ (rev8 k).toNat → bufRead d j = bufRead s.mem.dbuf j) ∧
      exec (.ilvStep k) s = .next { s with mem := { s.mem with dbuf := d }, p := s.p + 1, k := k + 1 }) ∧
  (∀ (s : State) (k : Byte), 162 ≤ (rev8 k).toNat → k ≠ 255 →
    exec (.ilvStep k) s = .next { s with k := k + 1 }) ∧
  ∀ s : State, s.p = 162 → exec (.ilvStep 255) s = .next { s with ph := 4, k := 0 }

/-- R162, R163: the 256 steps from `P` = 0 on a full `CBUF` write every `DBUF[PERM[p]]` with `CBUF[p]`, leave `P` = 162
and enter `MERGE`; `PERM` runs over each of 0..161 once. -/
def Obligations.InterleaverIsThePermutation : Prop :=
  permTable.Perm (List.range 162) ∧
  ∀ s : State, s.p = 0 → (∀ j < 162, bufRead s.mem.cbuf j ≠ none) → ∃ t : State,
    runOps ilvOps s = .next t ∧ t.p = 162 ∧ t.ph = 4 ∧ t.k = 0 ∧
    t.mem.cbuf = s.mem.cbuf ∧ t.mem.ybuf = s.mem.ybuf ∧
    ∀ p (hp : p < permTable.length), bufRead t.mem.dbuf permTable[p] = bufRead s.mem.cbuf p

/-! ### symbol_merger -/

/-- R176: `MRG_STEP`, selected at `(MERGE, K)` for `K` in 0..161, writes `SYNC[K] + 2 * DBUF[K]` to `YBUF[K]`, data bit high and sync bit low, and goes on to `K + 1`
or at `K` = 161 to `(EMIT, 0)`. -/
def Obligations.MrgStepFormsTheSymbol : Prop :=
  ∀ (s : State) (k : Byte) (sync d : BitVec 1), k.toNat < 162 →
    syncRom[k.toNat]? = some sync → bufRead s.mem.dbuf k.toNat = some d →
    decodeSequencer 4 k = .ok (.mrgStep k) ∧
    ∃ y : Buf 2,
      bufRead y k.toNat = some (d ++ sync) ∧ (d ++ sync).toNat = sync.toNat + 2 * d.toNat ∧
      (∀ j, j ≠ k.toNat → bufRead y j = bufRead s.mem.ybuf j) ∧
      (k ≠ 161 → exec (.mrgStep k) s = .next { s with mem := { s.mem with ybuf := y }, k := k + 1 }) ∧
      (k = 161 → exec (.mrgStep k) s = .next { s with mem := { s.mem with ybuf := y }, ph := 5, k := 0 })

/-- R177: the 162 steps on a full `DBUF` write every `YBUF[i]`, with `SYNC[i]` in its low bit and `DBUF[i]` in its high
bit; 63 of the symbols are odd whatever the message. -/
def Obligations.MergeStageKeepsSyncAndData : Prop :=
  ∀ s : State, (∀ j < 162, bufRead s.mem.dbuf j ≠ none) → ∃ t : State,
    runOps mrgOps s = .next t ∧ t.ph = 5 ∧ t.k = 0 ∧ t.mem.dbuf = s.mem.dbuf ∧
    (∀ i < 162, ∃ y : BitVec 2, bufRead t.mem.ybuf i = some y ∧
      syncRom[i]? = some (y.extractLsb' 0 1) ∧ bufRead s.mem.dbuf i = some (y.extractLsb' 1 1)) ∧
    ((List.range 162).countP fun i => (bufRead t.mem.ybuf i).any fun y => y.getLsbD 0) = 63

/-! ### output_stage -/

/-- R190: `EMIT_STEP`, selected at `(EMIT, K)` for `K` in 0..161, waits with nothing changed while `sym_ready` = 0;
taken, it appends `(K, YBUF[K])` to `OUT` and goes on to `K + 1`, or at `K` = 161 ends the transaction with `ERR` as it
was; in `EMIT` the port shows the element, its byte, its index and whether it is the last.
That the wait is a next state, also where `YBUF[K]` is not written, is the model's choice (notes/assumptions/6.md,
21.md). -/
def Obligations.EmitStepHandsOverOneSymbol : Prop :=
  (∀ k : Byte, k.toNat ≤ 161 → decodeSequencer 5 k = .ok (.emitStep k)) ∧
  (∀ (s : State) (v : BitVec 2), s.ph = 5 → bufRead s.mem.ybuf s.k.toNat = some v →
    s.symValid = true ∧ s.symbolPort = some ⟨v, v.zeroExtend 8, s.k, decide (s.k = 161)⟩) ∧
  (∀ (s : State) (k : Byte), s.ports.symReady = false → exec (.emitStep k) s = .next s) ∧
  (∀ (s : State) (k : Byte) (v : BitVec 2), s.ports.symReady = true → k.toNat < 161 →
    bufRead s.mem.ybuf k.toNat = some v →
    exec (.emitStep k) s = .next { s with out := s.out ++ [(k, v)], k := k + 1 }) ∧
  ∀ (s : State) (v : BitVec 2), s.ports.symReady = true → bufRead s.mem.ybuf 161 = some v →
    exec (.emitStep 161) s = .next
      { s with out := s.out ++ [(161, v)], busy := false, done := true, ph := 0, k := 0 }

/-- R38, R54, R190: what the symbol port shows in `EMIT` is what an `EMIT_STEP` hands over: the element, the same value
as a byte, its index, and `sym_last` exactly at 161; the port shows nothing outside `EMIT`. -/
def Obligations.SymbolPortShowsWhatIsHandedOver : Prop :=
  ∀ s : State,
    (s.ph ≠ 5 → s.symValid = false ∧ s.symbolPort = none) ∧
    ∀ t : State, s.ph = 5 → s.ports.symReady = true → exec (.emitStep s.k) s = .next t →
      ∃ v : SymbolPort, s.symValid = true ∧ s.symbolPort = some v ∧ t.out = s.out ++ [(s.k, v.sym)] ∧
        v.symByte.toNat = v.sym.toNat ∧ v.symIdx = s.k ∧ (v.symLast = true ↔ s.k = 161)

/-- R33, R177: whatever the host does, the symbols handed out so far are indices 0, 1, 2, ... in order, at most 162 of
them, and the low bit of each is the sync bit of its index. -/
def Obligations.SymbolsLeaveInOrder : Prop :=
  ∀ t : State, t.Reachable →
    t.out.length ≤ 162 ∧
    ∀ (i : Nat) (e : Byte × BitVec 2), t.out[i]? = some e →
      e.1.toNat = i ∧ syncRom[i]? = some (e.2.extractLsb' 0 1)

/-! ### Status -/

/-- R31, R32: in every state a run from reset reaches, `BUSY` is `PH != IDLE`, `DONE` and an error are never up while
`BUSY` is, `ERR` is 0, 2, 3 or 4, and 0 while `DONE` = 0; `STATUS` is the three fields side by side. -/
def Obligations.StatusTellsTheTransaction : Prop :=
  ∀ t : State, t.Reachable →
    (t.busy = true ↔ t.ph ≠ 0) ∧ (t.busy = true → t.done = false) ∧ (t.done = false → t.err = 0) ∧
    (t.err = 0 ∨ t.err = 2 ∨ t.err = 3 ∨ t.err = 4) ∧
    t.status.getLsbD 0 = t.busy ∧ t.status.getLsbD 1 = t.done ∧ t.status.extractLsb' 2 3 = t.err

/-! ### The whole machine -/

/-- The invariant holds right after reset, whatever levels the host drives then and later. -/
def Obligations.InvariantHoldsAtReset : Prop :=
  ∀ (ports : Ports) (host : List Ports), (State.boot ports host).Inv

/-- Every step keeps the invariant, in every state that has it. -/
def Obligations.StepKeepsTheInvariant : Prop :=
  ∀ s t : State, s.Inv → step s = .next t → t.Inv

/-- A state of the invariant always has a next state: no fault and no refusal (R250). -/
def Obligations.InvariantStatesAlwaysStep : Prop :=
  ∀ s : State, s.Inv → ∃ t : State, step s = .next t

/-- R250: no run from reset ever faults or is refused, whatever the host drives at the step boundaries. -/
def Obligations.NoRunFromResetStops : Prop :=
  ∀ (ports : Ports) (host : List Ports), (State.boot ports host).runsSafely

/-- R210: from any idle state of the invariant, a request held at the port with `sym_ready` = 1 is encoded in exactly
the steps R220 counts: 668 for a success, with `OUT` the 162 pairs of `encode`, or 2, 3, 4 for an error, with `OUT`
empty. That the request latch still holds the request when the transaction has ended is the model's choice
(notes/assumptions/20.md); the spec's own clauses are those about `PH`, `BUSY`, `DONE`, `ERR` and `OUT`. -/
def Obligations.TransactionComputesEncode : Prop :=
  ∀ s : State, s.Inv → s.ph = 0 → s.ports.rst = false → s.ports.reqValid = true → s.ports.symReady = true →
    s.host = [] →
    ∃ t : State, Host.Core.run core (transactionSteps s.ports.req) s = .next t ∧
      t.ph = 0 ∧ t.busy = false ∧ t.done = true ∧ t.latch = s.ports.req ∧
      match transact s.ports.req with
      | .error .invalidCallsign => t.err = 2 ∧ t.out = []
      | .error .invalidGrid => t.err = 3 ∧ t.out = []
      | .error .invalidPower => t.err = 4 ∧ t.out = []
      | .ok y => t.err = 0 ∧ t.out = y

/-- R191, R210: a transaction that a reachable state begins and that ends, whatever the host does with the request port
and `sym_ready` meanwhile (no reset), shows exactly the result of `encode` for the request that was taken: 162 symbols in
order and `ERR` = 0, or no symbol and the error. -/
def Obligations.FinishedTransactionShowsEncode : Prop :=
  ∀ (s t : State) (n : Nat), s.Reachable → s.transactionTo n t →
    t.done = true ∧ t.busy = false ∧
    match transact s.ports.req with
    | .error .invalidCallsign => t.err = 2 ∧ t.out = []
    | .error .invalidGrid => t.err = 3 ∧ t.out = []
    | .error .invalidPower => t.err = 4 ∧ t.out = []
    | .ok y => t.err = 0 ∧ t.out = y ∧ t.out.length = 162

/-- R219: the result is a function of the payload alone: two transactions, after any histories and with any hosts, of
requests with the same presented characters and power show the same `ERR` and the same symbols. -/
def Obligations.ResultDependsOnThePayloadAlone : Prop :=
  ∀ (s s' t t' : State) (n n' : Nat), s.Reachable → s'.Reachable → s.transactionTo n t → s'.transactionTo n' t' →
    SamePayload s.ports.req s'.ports.req → t.err = t'.err ∧ t.out = t'.out

/-- R220 (informative), R278: every step of a busy CORE that is not reset brings the end nearer by exactly one, or ends
the transaction, or waits in `EMIT` for the host. -/
def Obligations.EveryStepBringsTheEndNearer : Prop :=
  ∀ s t : State, s.Inv → s.ports.rst = false → s.ph ≠ 0 → (s.ph = 5 → s.ports.symReady = true) →
    step s = .next t →
    (t.ph = 0 ∧ t.done = true) ∨
    ∃ i j : Instr, decodeSequencer s.ph s.k = .ok i ∧ decodeSequencer t.ph t.k = .ok j ∧
      stepsLeft i = stepsLeft j + 1

/-! ### What the host makes of the symbols -/

/-- R192: the bits file of a finished success is 162 bytes, byte `i` the value of symbol `i` of the frame of the latched
request, in {0,1,2,3}. That the latch keeps the request after the transaction is the model's choice
(notes/assumptions/20.md). -/
def Obligations.BitsFileIsOneByteASymbol : Prop :=
  ∀ t : State, t.Inv → t.ph = 0 → t.done = true → t.err = 0 →
    (bitsFile t.out).length = 162 ∧
    ∃ n : BitVec 50, pack t.latch = .ok n ∧
      ∀ i < 162, ∃ b : Byte, (bitsFile t.out)[i]? = some b ∧ b.toNat = (symbolAt n i).toNat ∧ b.toNat ≤ 3

/-- R195: the altered symbol has the complement of the sync bit low and the same data bit high. -/
def Obligations.AlteredSymbolFlipsTheSyncBit : Prop :=
  ∀ s d : BitVec 1, (alteredSymbol (symbolOf s d)).toNat = (1 - s.toNat) + 2 * d.toNat

/-- R193: the four tones, in units of 1/512 Hz: 1497.802734375, 1499.267578125, 1500.732421875, 1502.197265625 Hz. -/
def Obligations.TonesAreTheFourFrequencies : Prop :=
  toneFrequency512 0 * 1000000000 = 1497802734375 * 512 ∧ toneFrequency512 1 * 1000000000 = 1499267578125 * 512 ∧
  toneFrequency512 2 * 1000000000 = 1500732421875 * 512 ∧ toneFrequency512 3 * 1000000000 = 1502197265625 * 512
end

