-- ==== Sys2Proof/Laws/Memory.lean ====
section
/-! SUPPORT. The laws of the buffers: read after write, canonical form, and what each access answers
(spec/20_memory.md R51, R52). -/

namespace Sys2Proof.Machine

variable {w : Nat}

/-- A read of the element just written gives the value written. -/
@[simp] theorem bufRead_bufWrite_same (b : Buf w) (i : Nat) (v : BitVec w) :
    bufRead (bufWrite b i v) i = some v := by
  induction b with
  | nil => simp [bufWrite, bufRead]
  | cons e b ih =>
    obtain ⟨j, x⟩ := e
    unfold bufWrite
    split
    · simp [bufRead]
    · split
      · simp [bufRead]
      · rename_i h
        simp [bufRead, h, ih]

/-- A write leaves every other element alone. -/
theorem bufRead_bufWrite_other (b : Buf w) {i j : Nat} (v : BitVec w) (h : j ≠ i) :
    bufRead (bufWrite b i v) j = bufRead b j := by
  induction b with
  | nil => simp [bufWrite, bufRead, h]
  | cons e b ih =>
    obtain ⟨l, x⟩ := e
    unfold bufWrite
    split
    · simp [bufRead, h]
    · split
      · rename_i hl; subst hl; simp [bufRead, h]
      · simp only [bufRead, ih]

/-- Read after write, at any two indices. -/
theorem bufRead_bufWrite (b : Buf w) (i j : Nat) (v : BitVec w) :
    bufRead (bufWrite b i v) j = if j = i then some v else bufRead b j := by
  split
  · rename_i h; subst h; exact bufRead_bufWrite_same b j v
  · rename_i h; exact bufRead_bufWrite_other b v h

/-- The indices after a write are the old ones and the one written. -/
theorem mem_fst_bufWrite {b : Buf w} {i l : Nat} {v : BitVec w}
    (h : l ∈ (bufWrite b i v).map Prod.fst) : l = i ∨ l ∈ b.map Prod.fst := by
  induction b with
  | nil => simpa [bufWrite] using h
  | cons e b ih =>
    obtain ⟨j, x⟩ := e
    unfold bufWrite at h
    split at h
    · simpa using h
    · split at h
      · simp only [List.map_cons, List.mem_cons] at h ⊢; tauto
      · simp only [List.map_cons, List.mem_cons] at h ⊢
        rcases h with h | h
        · exact .inr (.inl h)
        · rcases ih h with h | h
          · exact .inl h
          · exact .inr (.inr h)

/-- A write keeps the indices strictly rising. -/
theorem bufWrite_rising {b : Buf w} (i : Nat) (v : BitVec w)
    (h : (b.map Prod.fst).Pairwise (· < ·)) : ((bufWrite b i v).map Prod.fst).Pairwise (· < ·) := by
  induction b with
  | nil => simp [bufWrite]
  | cons e b ih =>
    obtain ⟨j, x⟩ := e
    simp only [List.map_cons, List.pairwise_cons] at h
    unfold bufWrite
    split
    · rename_i hij
      simp only [List.map_cons, List.pairwise_cons, List.mem_cons]
      refine ⟨?_, h⟩
      rintro a (rfl | ha)
      · exact hij
      · exact hij.trans (h.1 a ha)
    · split
      · rename_i hij
        subst hij
        simpa using h
      · simp only [List.map_cons, List.pairwise_cons]
        refine ⟨fun a ha => ?_, ih h.2⟩
        rcases mem_fst_bufWrite ha with rfl | ha
        · omega
        · exact h.1 a ha

/-- A write inside the index range keeps the canonical form. -/
theorem bufWrite_wf {b : Buf w} {i : Nat} (v : BitVec w) (hi : i < 162) (h : Buf.wf b) :
    Buf.wf (bufWrite b i v) := by
  refine ⟨bufWrite_rising i v h.1, fun e he => ?_⟩
  rcases mem_fst_bufWrite (List.mem_map_of_mem (f := Prod.fst) he) with h' | h'
  · omega
  · obtain ⟨e', he', heq⟩ := List.mem_map.mp h'
    have := h.2 e' he'
    omega

/-- Equal canonical buffers are equal data: the elements decide the list. -/
theorem buf_ext {a b : Buf w} (ha : (a.map Prod.fst).Pairwise (· < ·)) (hb : (b.map Prod.fst).Pairwise (· < ·))
    (h : ∀ i, bufRead a i = bufRead b i) : a = b := by
  induction a generalizing b with
  | nil =>
    cases b with
    | nil => rfl
    | cons e b => obtain ⟨j, x⟩ := e; simpa [bufRead] using h j
  | cons e a ih =>
    obtain ⟨j, x⟩ := e
    cases b with
    | nil => simpa [bufRead] using h j
    | cons e' b =>
      obtain ⟨l, y⟩ := e'
      simp only [List.map_cons, List.pairwise_cons] at ha hb
      have notin : ∀ {c : Buf w} {i : Nat}, (∀ m ∈ c.map Prod.fst, i < m) → bufRead c i = none := by
        intro c i hc
        induction c with
        | nil => rfl
        | cons d c ihc =>
          obtain ⟨m, z⟩ := d
          simp only [List.map_cons, List.mem_cons, forall_eq_or_imp] at hc
          simp [bufRead, Nat.ne_of_lt hc.1, ihc hc.2]
      have hjl : j = l := by
        rcases Nat.lt_trichotomy j l with hlt | heq | hgt
        · have h1 := h j
          simp [bufRead, Nat.ne_of_lt hlt, notin fun m hm => hlt.trans (hb.1 m hm)] at h1
        · exact heq
        · have h1 := h l
          simp [bufRead, Nat.ne_of_lt hgt, notin fun m hm => hgt.trans (ha.1 m hm)] at h1
      subst hjl
      have hxy : x = y := by simpa [bufRead] using h j
      subst hxy
      refine congrArg _ (ih ha.2 hb.2 fun i => ?_)
      by_cases hi : i = j
      · subst hi; rw [notin ha.1, notin hb.1]
      · simpa [bufRead, hi] using h i

/-- When a buffer read answers a value: the index is in range and the element holds it. -/
theorem memRead_ok_iff {sp : Space} {b : Buf w} {i : Nat} {v : BitVec w} :
    memRead sp b i = .ok v ↔ i < 162 ∧ bufRead b i = some v := by
  unfold memRead
  split
  · split <;> simp_all
  · simp_all

/-- When a buffer write is done: the index is in range. -/
theorem memWrite_ok_iff {sp : Space} {b c : Buf w} {i : Nat} {v : BitVec w} :
    memWrite sp b i v = .ok c ↔ i < 162 ∧ c = bufWrite b i v := by
  unfold memWrite
  split <;> simp_all [eq_comm]

/-- When a ROM read answers a value. -/
theorem romRead_ok_iff {sp : Space} {rom : List (BitVec w)} {i : Nat} {v : BitVec w} :
    romRead sp rom i = .ok v ↔ rom[i]? = some v := by
  unfold romRead
  split <;> simp_all

/-- A buffer read stops exactly outside the range, or at an element not written. -/
theorem memRead_error_iff {sp : Space} {b : Buf w} {i : Nat} {e : Fault} :
    memRead sp b i = .error e ↔
      (i < 162 ∧ bufRead b i = none ∧ e = .unwrittenElement sp i) ∨ (162 ≤ i ∧ e = .indexOutOfRange sp i) := by
  unfold memRead
  split
  · rename_i hlt
    have hge : ¬ 162 ≤ i := by omega
    cases bufRead b i with
    | none => simp [hlt, hge, eq_comm (a := e)]
    | some v => simp [hge]
  · simp_all [eq_comm]

/-- A buffer write stops exactly outside the range. -/
theorem memWrite_error_iff {sp : Space} {b : Buf w} {i : Nat} {v : BitVec w} {e : Fault} :
    memWrite sp b i v = .error e ↔ 162 ≤ i ∧ e = .indexOutOfRange sp i := by
  unfold memWrite
  split
  · simp only [reduceCtorEq, false_iff, not_and]; omega
  · simp_all [eq_comm]

/-- A done write keeps the canonical form. -/
theorem memWrite_wf {sp : Space} {b c : Buf w} {i : Nat} {v : BitVec w} (h : memWrite sp b i v = .ok c)
    (hb : Buf.wf b) : Buf.wf c := by
  obtain ⟨hi, rfl⟩ := memWrite_ok_iff.mp h
  exact bufWrite_wf v hi hb

end Sys2Proof.Machine
end

