-- ==== Sys2Proof/Laws/State.lean ====
section
/-! SUPPORT. One lemma per field per update of State, so that no later proof unfolds a record update. -/

namespace Sys2Proof.Machine

@[simp] theorem State.enter_latch (s : State) (ph : Phase) :
    (s.enter ph).latch = s.latch := rfl
@[simp] theorem State.enter_f (s : State) (ph : Phase) :
    (s.enter ph).f = s.f := rfl
@[simp] theorem State.enter_n1 (s : State) (ph : Phase) :
    (s.enter ph).n1 = s.n1 := rfl
@[simp] theorem State.enter_m (s : State) (ph : Phase) :
    (s.enter ph).m = s.m := rfl
@[simp] theorem State.enter_pw (s : State) (ph : Phase) :
    (s.enter ph).pw = s.pw := rfl
@[simp] theorem State.enter_n (s : State) (ph : Phase) :
    (s.enter ph).n = s.n := rfl
@[simp] theorem State.enter_r (s : State) (ph : Phase) :
    (s.enter ph).r = if ph = .conv then 0 else s.r := rfl
@[simp] theorem State.enter_mem (s : State) (ph : Phase) :
    (s.enter ph).mem = s.mem := rfl
@[simp] theorem State.enter_ph (s : State) (ph : Phase) :
    (s.enter ph).ph = ph.code := rfl
@[simp] theorem State.enter_k (s : State) (ph : Phase) :
    (s.enter ph).k = 0 := rfl
@[simp] theorem State.enter_p (s : State) (ph : Phase) :
    (s.enter ph).p = if ph = .ilv then 0 else s.p := rfl
@[simp] theorem State.enter_busy (s : State) (ph : Phase) :
    (s.enter ph).busy = s.busy := rfl
@[simp] theorem State.enter_done (s : State) (ph : Phase) :
    (s.enter ph).done = s.done := rfl
@[simp] theorem State.enter_err (s : State) (ph : Phase) :
    (s.enter ph).err = s.err := rfl
@[simp] theorem State.enter_out (s : State) (ph : Phase) :
    (s.enter ph).out = s.out := rfl
@[simp] theorem State.enter_ports (s : State) (ph : Phase) :
    (s.enter ph).ports = s.ports := rfl
@[simp] theorem State.enter_host (s : State) (ph : Phase) :
    (s.enter ph).host = s.host := rfl

@[simp] theorem State.goTo_latch (s : State) (ph : Phase) (k : Byte) :
    (s.goTo ph k).latch = s.latch := rfl
@[simp] theorem State.goTo_f (s : State) (ph : Phase) (k : Byte) :
    (s.goTo ph k).f = s.f := rfl
@[simp] theorem State.goTo_n1 (s : State) (ph : Phase) (k : Byte) :
    (s.goTo ph k).n1 = s.n1 := rfl
@[simp] theorem State.goTo_m (s : State) (ph : Phase) (k : Byte) :
    (s.goTo ph k).m = s.m := rfl
@[simp] theorem State.goTo_pw (s : State) (ph : Phase) (k : Byte) :
    (s.goTo ph k).pw = s.pw := rfl
@[simp] theorem State.goTo_n (s : State) (ph : Phase) (k : Byte) :
    (s.goTo ph k).n = s.n := rfl
@[simp] theorem State.goTo_r (s : State) (ph : Phase) (k : Byte) :
    (s.goTo ph k).r = s.r := rfl
@[simp] theorem State.goTo_mem (s : State) (ph : Phase) (k : Byte) :
    (s.goTo ph k).mem = s.mem := rfl
@[simp] theorem State.goTo_ph (s : State) (ph : Phase) (k : Byte) :
    (s.goTo ph k).ph = ph.code := rfl
@[simp] theorem State.goTo_k (s : State) (ph : Phase) (k : Byte) :
    (s.goTo ph k).k = k := rfl
@[simp] theorem State.goTo_p (s : State) (ph : Phase) (k : Byte) :
    (s.goTo ph k).p = s.p := rfl
@[simp] theorem State.goTo_busy (s : State) (ph : Phase) (k : Byte) :
    (s.goTo ph k).busy = s.busy := rfl
@[simp] theorem State.goTo_done (s : State) (ph : Phase) (k : Byte) :
    (s.goTo ph k).done = s.done := rfl
@[simp] theorem State.goTo_err (s : State) (ph : Phase) (k : Byte) :
    (s.goTo ph k).err = s.err := rfl
@[simp] theorem State.goTo_out (s : State) (ph : Phase) (k : Byte) :
    (s.goTo ph k).out = s.out := rfl
@[simp] theorem State.goTo_ports (s : State) (ph : Phase) (k : Byte) :
    (s.goTo ph k).ports = s.ports := rfl
@[simp] theorem State.goTo_host (s : State) (ph : Phase) (k : Byte) :
    (s.goTo ph k).host = s.host := rfl

@[simp] theorem State.setK_latch (s : State) (k : Byte) :
    (s.setK k).latch = s.latch := rfl
@[simp] theorem State.setK_f (s : State) (k : Byte) :
    (s.setK k).f = s.f := rfl
@[simp] theorem State.setK_n1 (s : State) (k : Byte) :
    (s.setK k).n1 = s.n1 := rfl
@[simp] theorem State.setK_m (s : State) (k : Byte) :
    (s.setK k).m = s.m := rfl
@[simp] theorem State.setK_pw (s : State) (k : Byte) :
    (s.setK k).pw = s.pw := rfl
@[simp] theorem State.setK_n (s : State) (k : Byte) :
    (s.setK k).n = s.n := rfl
@[simp] theorem State.setK_r (s : State) (k : Byte) :
    (s.setK k).r = s.r := rfl
@[simp] theorem State.setK_mem (s : State) (k : Byte) :
    (s.setK k).mem = s.mem := rfl
@[simp] theorem State.setK_ph (s : State) (k : Byte) :
    (s.setK k).ph = s.ph := rfl
@[simp] theorem State.setK_k (s : State) (k : Byte) :
    (s.setK k).k = k := rfl
@[simp] theorem State.setK_p (s : State) (k : Byte) :
    (s.setK k).p = s.p := rfl
@[simp] theorem State.setK_busy (s : State) (k : Byte) :
    (s.setK k).busy = s.busy := rfl
@[simp] theorem State.setK_done (s : State) (k : Byte) :
    (s.setK k).done = s.done := rfl
@[simp] theorem State.setK_err (s : State) (k : Byte) :
    (s.setK k).err = s.err := rfl
@[simp] theorem State.setK_out (s : State) (k : Byte) :
    (s.setK k).out = s.out := rfl
@[simp] theorem State.setK_ports (s : State) (k : Byte) :
    (s.setK k).ports = s.ports := rfl
@[simp] theorem State.setK_host (s : State) (k : Byte) :
    (s.setK k).host = s.host := rfl

@[simp] theorem State.setFlags_latch (s : State) (b d : Bool) (e : BitVec 3) :
    (s.setFlags b d e).latch = s.latch := rfl
@[simp] theorem State.setFlags_f (s : State) (b d : Bool) (e : BitVec 3) :
    (s.setFlags b d e).f = s.f := rfl
@[simp] theorem State.setFlags_n1 (s : State) (b d : Bool) (e : BitVec 3) :
    (s.setFlags b d e).n1 = s.n1 := rfl
@[simp] theorem State.setFlags_m (s : State) (b d : Bool) (e : BitVec 3) :
    (s.setFlags b d e).m = s.m := rfl
@[simp] theorem State.setFlags_pw (s : State) (b d : Bool) (e : BitVec 3) :
    (s.setFlags b d e).pw = s.pw := rfl
@[simp] theorem State.setFlags_n (s : State) (b d : Bool) (e : BitVec 3) :
    (s.setFlags b d e).n = s.n := rfl
@[simp] theorem State.setFlags_r (s : State) (b d : Bool) (e : BitVec 3) :
    (s.setFlags b d e).r = s.r := rfl
@[simp] theorem State.setFlags_mem (s : State) (b d : Bool) (e : BitVec 3) :
    (s.setFlags b d e).mem = s.mem := rfl
@[simp] theorem State.setFlags_ph (s : State) (b d : Bool) (e : BitVec 3) :
    (s.setFlags b d e).ph = s.ph := rfl
@[simp] theorem State.setFlags_k (s : State) (b d : Bool) (e : BitVec 3) :
    (s.setFlags b d e).k = s.k := rfl
@[simp] theorem State.setFlags_p (s : State) (b d : Bool) (e : BitVec 3) :
    (s.setFlags b d e).p = s.p := rfl
@[simp] theorem State.setFlags_busy (s : State) (b d : Bool) (e : BitVec 3) :
    (s.setFlags b d e).busy = b := rfl
@[simp] theorem State.setFlags_done (s : State) (b d : Bool) (e : BitVec 3) :
    (s.setFlags b d e).done = d := rfl
@[simp] theorem State.setFlags_err (s : State) (b d : Bool) (e : BitVec 3) :
    (s.setFlags b d e).err = e := rfl
@[simp] theorem State.setFlags_out (s : State) (b d : Bool) (e : BitVec 3) :
    (s.setFlags b d e).out = s.out := rfl
@[simp] theorem State.setFlags_ports (s : State) (b d : Bool) (e : BitVec 3) :
    (s.setFlags b d e).ports = s.ports := rfl
@[simp] theorem State.setFlags_host (s : State) (b d : Bool) (e : BitVec 3) :
    (s.setFlags b d e).host = s.host := rfl

@[simp] theorem State.emit_latch (s : State) (i : Byte) (v : BitVec 2) :
    (s.emit i v).latch = s.latch := rfl
@[simp] theorem State.emit_f (s : State) (i : Byte) (v : BitVec 2) :
    (s.emit i v).f = s.f := rfl
@[simp] theorem State.emit_n1 (s : State) (i : Byte) (v : BitVec 2) :
    (s.emit i v).n1 = s.n1 := rfl
@[simp] theorem State.emit_m (s : State) (i : Byte) (v : BitVec 2) :
    (s.emit i v).m = s.m := rfl
@[simp] theorem State.emit_pw (s : State) (i : Byte) (v : BitVec 2) :
    (s.emit i v).pw = s.pw := rfl
@[simp] theorem State.emit_n (s : State) (i : Byte) (v : BitVec 2) :
    (s.emit i v).n = s.n := rfl
@[simp] theorem State.emit_r (s : State) (i : Byte) (v : BitVec 2) :
    (s.emit i v).r = s.r := rfl
@[simp] theorem State.emit_mem (s : State) (i : Byte) (v : BitVec 2) :
    (s.emit i v).mem = s.mem := rfl
@[simp] theorem State.emit_ph (s : State) (i : Byte) (v : BitVec 2) :
    (s.emit i v).ph = s.ph := rfl
@[simp] theorem State.emit_k (s : State) (i : Byte) (v : BitVec 2) :
    (s.emit i v).k = s.k := rfl
@[simp] theorem State.emit_p (s : State) (i : Byte) (v : BitVec 2) :
    (s.emit i v).p = s.p := rfl
@[simp] theorem State.emit_busy (s : State) (i : Byte) (v : BitVec 2) :
    (s.emit i v).busy = s.busy := rfl
@[simp] theorem State.emit_done (s : State) (i : Byte) (v : BitVec 2) :
    (s.emit i v).done = s.done := rfl
@[simp] theorem State.emit_err (s : State) (i : Byte) (v : BitVec 2) :
    (s.emit i v).err = s.err := rfl
@[simp] theorem State.emit_out (s : State) (i : Byte) (v : BitVec 2) :
    (s.emit i v).out = s.out ++ [(i, v)] := rfl
@[simp] theorem State.emit_ports (s : State) (i : Byte) (v : BitVec 2) :
    (s.emit i v).ports = s.ports := rfl
@[simp] theorem State.emit_host (s : State) (i : Byte) (v : BitVec 2) :
    (s.emit i v).host = s.host := rfl

@[simp] theorem State.finish_latch (s : State) :
    (s.finish).latch = s.latch := rfl
@[simp] theorem State.finish_f (s : State) :
    (s.finish).f = s.f := rfl
@[simp] theorem State.finish_n1 (s : State) :
    (s.finish).n1 = s.n1 := rfl
@[simp] theorem State.finish_m (s : State) :
    (s.finish).m = s.m := rfl
@[simp] theorem State.finish_pw (s : State) :
    (s.finish).pw = s.pw := rfl
@[simp] theorem State.finish_n (s : State) :
    (s.finish).n = s.n := rfl
@[simp] theorem State.finish_r (s : State) :
    (s.finish).r = s.r := rfl
@[simp] theorem State.finish_mem (s : State) :
    (s.finish).mem = s.mem := rfl
@[simp] theorem State.finish_ph (s : State) :
    (s.finish).ph = 0 := rfl
@[simp] theorem State.finish_k (s : State) :
    (s.finish).k = 0 := rfl
@[simp] theorem State.finish_p (s : State) :
    (s.finish).p = s.p := rfl
@[simp] theorem State.finish_busy (s : State) :
    (s.finish).busy = false := rfl
@[simp] theorem State.finish_done (s : State) :
    (s.finish).done = true := rfl
@[simp] theorem State.finish_err (s : State) :
    (s.finish).err = s.err := rfl
@[simp] theorem State.finish_out (s : State) :
    (s.finish).out = s.out := rfl
@[simp] theorem State.finish_ports (s : State) :
    (s.finish).ports = s.ports := rfl
@[simp] theorem State.finish_host (s : State) :
    (s.finish).host = s.host := rfl

@[simp] theorem State.raise_latch (s : State) (e : EncodeError) :
    (s.raise e).latch = s.latch := rfl
@[simp] theorem State.raise_f (s : State) (e : EncodeError) :
    (s.raise e).f = s.f := rfl
@[simp] theorem State.raise_n1 (s : State) (e : EncodeError) :
    (s.raise e).n1 = s.n1 := rfl
@[simp] theorem State.raise_m (s : State) (e : EncodeError) :
    (s.raise e).m = s.m := rfl
@[simp] theorem State.raise_pw (s : State) (e : EncodeError) :
    (s.raise e).pw = s.pw := rfl
@[simp] theorem State.raise_n (s : State) (e : EncodeError) :
    (s.raise e).n = s.n := rfl
@[simp] theorem State.raise_r (s : State) (e : EncodeError) :
    (s.raise e).r = s.r := rfl
@[simp] theorem State.raise_mem (s : State) (e : EncodeError) :
    (s.raise e).mem = s.mem := rfl
@[simp] theorem State.raise_ph (s : State) (e : EncodeError) :
    (s.raise e).ph = 0 := rfl
@[simp] theorem State.raise_k (s : State) (e : EncodeError) :
    (s.raise e).k = 0 := rfl
@[simp] theorem State.raise_p (s : State) (e : EncodeError) :
    (s.raise e).p = s.p := rfl
@[simp] theorem State.raise_busy (s : State) (e : EncodeError) :
    (s.raise e).busy = false := rfl
@[simp] theorem State.raise_done (s : State) (e : EncodeError) :
    (s.raise e).done = true := rfl
@[simp] theorem State.raise_err (s : State) (e : EncodeError) :
    (s.raise e).err = errorCode e := rfl
@[simp] theorem State.raise_out (s : State) (e : EncodeError) :
    (s.raise e).out = s.out := rfl
@[simp] theorem State.raise_ports (s : State) (e : EncodeError) :
    (s.raise e).ports = s.ports := rfl
@[simp] theorem State.raise_host (s : State) (e : EncodeError) :
    (s.raise e).host = s.host := rfl

@[simp] theorem State.hostMove_latch (s : State) : s.hostMove.latch = s.latch := by
  unfold State.hostMove; split <;> rfl
@[simp] theorem State.hostMove_f (s : State) : s.hostMove.f = s.f := by
  unfold State.hostMove; split <;> rfl
@[simp] theorem State.hostMove_n1 (s : State) : s.hostMove.n1 = s.n1 := by
  unfold State.hostMove; split <;> rfl
@[simp] theorem State.hostMove_m (s : State) : s.hostMove.m = s.m := by
  unfold State.hostMove; split <;> rfl
@[simp] theorem State.hostMove_pw (s : State) : s.hostMove.pw = s.pw := by
  unfold State.hostMove; split <;> rfl
@[simp] theorem State.hostMove_n (s : State) : s.hostMove.n = s.n := by
  unfold State.hostMove; split <;> rfl
@[simp] theorem State.hostMove_r (s : State) : s.hostMove.r = s.r := by
  unfold State.hostMove; split <;> rfl
@[simp] theorem State.hostMove_mem (s : State) : s.hostMove.mem = s.mem := by
  unfold State.hostMove; split <;> rfl
@[simp] theorem State.hostMove_ph (s : State) : s.hostMove.ph = s.ph := by
  unfold State.hostMove; split <;> rfl
@[simp] theorem State.hostMove_k (s : State) : s.hostMove.k = s.k := by
  unfold State.hostMove; split <;> rfl
@[simp] theorem State.hostMove_p (s : State) : s.hostMove.p = s.p := by
  unfold State.hostMove; split <;> rfl
@[simp] theorem State.hostMove_busy (s : State) : s.hostMove.busy = s.busy := by
  unfold State.hostMove; split <;> rfl
@[simp] theorem State.hostMove_done (s : State) : s.hostMove.done = s.done := by
  unfold State.hostMove; split <;> rfl
@[simp] theorem State.hostMove_err (s : State) : s.hostMove.err = s.err := by
  unfold State.hostMove; split <;> rfl
@[simp] theorem State.hostMove_out (s : State) : s.hostMove.out = s.out := by
  unfold State.hostMove; split <;> rfl

/-- With no move to come the host holds its levels. -/
@[simp] theorem State.hostMove_of_host_nil (s : State) (h : s.host = []) : s.hostMove = s := by
  unfold State.hostMove; simp [h]

/-- At the last value of `K` a loop phase is left. -/
@[simp] theorem State.advance_last (s : State) (last : Byte) (next : Phase) :
    s.advance last last next = s.enter next := by simp [State.advance]

/-- Before the last value of `K` a loop phase goes on. -/
theorem State.advance_of_ne (s : State) (next : Phase) {k last : Byte} (h : k ≠ last) :
    s.advance k last next = s.setK (k + 1) := by simp [State.advance, h]

/-- An advance writes `PH`, `K`, and at a phase change `R` or `P`, and nothing else. -/
theorem State.advance_frame (s : State) (k last : Byte) (next : Phase) :
    s.advance k last next =
      { s with
        ph := (s.advance k last next).ph
        k := (s.advance k last next).k
        r := (s.advance k last next).r
        p := (s.advance k last next).p } := by
  unfold State.advance; split <;> rfl

@[simp] theorem State.advance_latch (s : State) (k last : Byte) (next : Phase) :
    (s.advance k last next).latch = s.latch := by
  unfold State.advance; split <;> rfl
@[simp] theorem State.advance_f (s : State) (k last : Byte) (next : Phase) :
    (s.advance k last next).f = s.f := by
  unfold State.advance; split <;> rfl
@[simp] theorem State.advance_n1 (s : State) (k last : Byte) (next : Phase) :
    (s.advance k last next).n1 = s.n1 := by
  unfold State.advance; split <;> rfl
@[simp] theorem State.advance_m (s : State) (k last : Byte) (next : Phase) :
    (s.advance k last next).m = s.m := by
  unfold State.advance; split <;> rfl
@[simp] theorem State.advance_pw (s : State) (k last : Byte) (next : Phase) :
    (s.advance k last next).pw = s.pw := by
  unfold State.advance; split <;> rfl
@[simp] theorem State.advance_n (s : State) (k last : Byte) (next : Phase) :
    (s.advance k last next).n = s.n := by
  unfold State.advance; split <;> rfl
@[simp] theorem State.advance_mem (s : State) (k last : Byte) (next : Phase) :
    (s.advance k last next).mem = s.mem := by
  unfold State.advance; split <;> rfl
@[simp] theorem State.advance_busy (s : State) (k last : Byte) (next : Phase) :
    (s.advance k last next).busy = s.busy := by
  unfold State.advance; split <;> rfl
@[simp] theorem State.advance_done (s : State) (k last : Byte) (next : Phase) :
    (s.advance k last next).done = s.done := by
  unfold State.advance; split <;> rfl
@[simp] theorem State.advance_err (s : State) (k last : Byte) (next : Phase) :
    (s.advance k last next).err = s.err := by
  unfold State.advance; split <;> rfl
@[simp] theorem State.advance_out (s : State) (k last : Byte) (next : Phase) :
    (s.advance k last next).out = s.out := by
  unfold State.advance; split <;> rfl
@[simp] theorem State.advance_ports (s : State) (k last : Byte) (next : Phase) :
    (s.advance k last next).ports = s.ports := by
  unfold State.advance; split <;> rfl
@[simp] theorem State.advance_host (s : State) (k last : Byte) (next : Phase) :
    (s.advance k last next).host = s.host := by
  unfold State.advance; split <;> rfl

end Sys2Proof.Machine
end

