-- ==== Sys2Proof/Laws/Ops.lean ====
section
/-! SUPPORT. What each shared operation answers, said once. -/

namespace Sys2Proof.Machine

/-- A chain of accesses answers a next state exactly when the access does and the rest does. -/
theorem orFault_next_iff {α : Type} {x : Except Fault α} {f : α → Result} {t : State} :
    orFault x f = .next t ↔ ∃ a, x = .ok a ∧ f a = .next t := by
  unfold orFault
  split <;> simp

/-- A chain of accesses faults at the access or in the rest. -/
theorem orFault_fault_iff {α : Type} {x : Except Fault α} {f : α → Result} {e : Fault} :
    orFault x f = .fault e ↔ x = .error e ∨ ∃ a, x = .ok a ∧ f a = .fault e := by
  unfold orFault
  split <;> simp

/-- A chain of accesses is never refused where the rest is not. -/
theorem orFault_refused_iff {α : Type} {x : Except Fault α} {f : α → Result} {e : Refusal} :
    orFault x f = .refused e ↔ ∃ a, x = .ok a ∧ f a = .refused e := by
  unfold orFault
  split <;> simp

/-- A done access passes its value on. -/
@[simp] theorem orFault_ok {α : Type} (a : α) (f : α → Result) : orFault (.ok a) f = f a := rfl

/-- A failed access stops. -/
@[simp] theorem orFault_error {α : Type} (e : Fault) (f : α → Result) : orFault (.error e) f = .fault e := rfl

/-- After a step the host has moved, and nothing else is added. -/
theorem afterStep_next_iff {x : Result} {t : State} :
    afterStep x = .next t ↔ ∃ u, x = .next u ∧ t = u.hostMove := by
  unfold afterStep
  split <;> simp [eq_comm]

/-- The decoder on the word the sequencer shows: `rst` first, then the operation map. -/
@[simp] theorem decode_selectionWord (rst : Bool) (ph : BitVec 3) (k : Byte) :
    decode (selectionWord rst ph k) = if rst then .ok .reset else decodeSequencer ph k := by
  have h11 : (selectionWord rst ph k).getLsbD 11 = rst := by
    rw [selectionWord, BitVec.getLsbD_append]
    simp
  have hph : (selectionWord rst ph k).extractLsb' 8 3 = ph := by
    ext i hi
    simp only [selectionWord, BitVec.getElem_extractLsb', BitVec.getLsbD_append]
    have h1 : 8 + i < 3 + 8 := by omega
    have h2 : ¬ 8 + i < 8 := by omega
    simp [h1, BitVec.getLsbD_eq_getElem hi]
  have hk : (selectionWord rst ph k).extractLsb' 0 8 = k := by
    ext i hi
    simp only [selectionWord, BitVec.getElem_extractLsb', BitVec.getLsbD_append]
    have h1 : i < 11 := by omega
    simp [h1, hi]
  simp only [decode, h11, hph, hk]

/-- One step with `rst` = 1 is `RESET`; otherwise it is the operation the sequencer word selects. -/
theorem step_eq (s : State) :
    step s =
      if s.ports.rst then afterStep (exec .reset s)
      else match decodeSequencer s.ph s.k with
        | .ok i => afterStep (exec i s)
        | .error kind => .refused (.reservedWord kind) := by
  unfold step State.selection
  rw [decode_selectionWord]
  split
  · split <;> simp_all
  · split <;> simp_all

end Sys2Proof.Machine
end

