-- ==== Sys2Proof/Laws/Exec.lean ====
section
/-! SUPPORT. What each operation answers, said once over the shared operations: `exec_<op>_next_iff` inverts it, and for
the loop operations a second lemma says where it completes. -/

namespace Sys2Proof.Machine

/-- The only next state of `RESET`. -/
theorem exec_reset_next_iff {s t : State} :
    exec .reset s = .next t ↔ t = { State.reset with ports := s.ports, host := s.host } := by
  simp [exec, execReset, eq_comm]

/-- `ACCEPT` starts a transaction, or waits. -/
theorem exec_accept_next_iff {s t : State} :
    exec .accept s = .next t ↔
      (s.ports.reqValid = true ∧
        t = ({ s with latch := s.ports.req, out := [] }.setFlags true false 0).enter .pack) ∨
      (s.ports.reqValid = false ∧ t = s) := by
  simp only [exec, execAccept]
  cases s.ports.reqValid <;> simp [eq_comm (a := t)]

/-- `CALL_NORM` writes the field, or raises. -/
theorem exec_callNorm_next_iff {s t : State} :
    exec .callNorm s = .next t ↔
      (callOk s.latch.call s.latch.callLen = true ∧
        t = { s with f := normalise s.latch.call s.latch.callLen }.goTo .pack 1) ∨
      (callOk s.latch.call s.latch.callLen = false ∧ t = s.raise .invalidCallsign) := by
  simp only [exec, execCallNorm]
  cases callOk s.latch.call s.latch.callLen <;> simp [eq_comm (a := t)]

/-- `GRID_CHK` goes on, or raises. -/
theorem exec_gridChk_next_iff {s t : State} :
    exec .gridChk s = .next t ↔
      (gridOk s.latch.grid s.latch.gridLen = true ∧ t = s.goTo .pack 2) ∨
      (gridOk s.latch.grid s.latch.gridLen = false ∧ t = s.raise .invalidGrid) := by
  simp only [exec, execGridChk]
  cases gridOk s.latch.grid s.latch.gridLen <;> simp [eq_comm (a := t)]

/-- `PWR_LOOKUP` writes the code, or raises. -/
theorem exec_pwrLookup_next_iff {s t : State} :
    exec .pwrLookup s = .next t ↔
      (pwrOk s.latch.dbm = true ∧ t = { s with pw := powerCode s.latch.dbm }.goTo .pack 3) ∨
      (pwrOk s.latch.dbm = false ∧ t = s.raise .invalidPower) := by
  simp only [exec, execPwrLookup]
  cases pwrOk s.latch.dbm <;> simp [eq_comm (a := t)]

/-- The only next state of `CALL_PACK`. -/
theorem exec_callPack_next_iff {s t : State} :
    exec .callPack s = .next t ↔ t = { s with n1 := n1Of s.f }.goTo .pack 4 := by
  simp [exec, execCallPack, eq_comm]

/-- The only next state of `GRID_PACK`. -/
theorem exec_gridPack_next_iff {s t : State} :
    exec .gridPack s = .next t ↔ t = { s with m := mOf s.latch.grid }.goTo .pack 5 := by
  simp [exec, execGridPack, eq_comm]

/-- The only next state of `ASSEMBLE`. -/
theorem exec_assemble_next_iff {s t : State} :
    exec .assemble s = .next t ↔ t = { s with n := sourceWord s.n1 s.m s.pw }.enter .conv := by
  simp [exec, execAssemble, eq_comm]

/-- `CONV_STEP` in its range of `K` writes two elements and the register, and advances (R144). -/
theorem exec_convStep_of_le {k : Byte} (h : k.toNat ≤ 80) (s : State) :
    exec (.convStep k) s = .next
      (State.advance
        { s with
          mem :=
            { s.mem with
              cbuf := bufWrite
                (bufWrite s.mem.cbuf (convIndex0 k)
                  (BitVec.ofBool (parity (shiftIn s.r (inputBit s.n k.toNat) &&& G0))))
                (convIndex1 k) (BitVec.ofBool (parity (shiftIn s.r (inputBit s.n k.toNat) &&& G1))) }
          r := shiftIn s.r (inputBit s.n k.toNat) }
        k 80 .ilv) := by
  have h0 : convIndex0 k < 162 := by unfold convIndex0; omega
  have h1 : convIndex1 k < 162 := by unfold convIndex1; omega
  simp [exec, execConvStep, memWrite, h0, h1]

/-- `CONV_STEP` goes on only in its range of `K`. -/
theorem le_of_exec_convStep_next {k : Byte} {s t : State} (h : exec (.convStep k) s = .next t) : k.toNat ≤ 80 := by
  simp only [exec, execConvStep, orFault_next_iff, memWrite_ok_iff] at h
  obtain ⟨_, ⟨h0, -⟩, -⟩ := h
  unfold convIndex0 at h0
  omega

/-- `ILV_STEP` at a reversed index of 162 or more makes no access (R161). -/
theorem exec_ilvStep_skip {k : Byte} (h : ¬ ilvIndex k < 162) (s : State) :
    exec (.ilvStep k) s = ilvEnd k s := by
  simp [exec, execIlvStep, h]

/-- `ILV_STEP` at a reversed index below 162 copies one element (R161). -/
theorem exec_ilvStep_copy {k : Byte} (h : ilvIndex k < 162) {s : State} {c : BitVec 1} (hp : s.p.toNat < 162)
    (hc : bufRead s.mem.cbuf s.p.toNat = some c) :
    exec (.ilvStep k) s =
      ilvEnd k { s with mem := { s.mem with dbuf := bufWrite s.mem.dbuf (ilvIndex k) c }, p := s.p + 1 } := by
  simp [exec, execIlvStep, h, memRead, memWrite, hp, hc]

/-- The end of an `ILV_STEP` that is not the last advances. -/
theorem ilvEnd_of_ne {k : Byte} (h : k ≠ 255) (s : State) : ilvEnd k s = .next (s.setK (k + 1)) := by
  rw [ilvEnd, if_neg fun hh => h hh.1, State.advance_of_ne _ _ h]

/-- The last `ILV_STEP` enters `MERGE` when all 162 bits were copied. -/
theorem ilvEnd_last {s : State} (h : s.p = 162) : ilvEnd 255 s = .next (s.enter .merge) := by
  simp [ilvEnd, h]

/-- When the end of an `ILV_STEP` goes on, it advances. -/
theorem ilvEnd_next_iff {k : Byte} {s t : State} :
    ilvEnd k s = .next t ↔ (k = 255 → s.p = 162) ∧ t = s.advance k 255 .merge := by
  unfold ilvEnd
  split
  · simp_all
  · rename_i h
    have h' : k = 255 → s.p = 162 := fun hk => by_contra fun hp => h ⟨hk, hp⟩
    constructor
    · intro hh
      cases hh
      exact ⟨h', rfl⟩
    · rintro ⟨_, rfl⟩
      rfl

/-- `ILV_STEP` goes on after a copy or a skip, when the count is right at the last step. -/
theorem exec_ilvStep_next_iff {k : Byte} {s t : State} :
    exec (.ilvStep k) s = .next t ↔
      (∃ c, ilvIndex k < 162 ∧ s.p.toNat < 162 ∧ bufRead s.mem.cbuf s.p.toNat = some c ∧
        ilvEnd k { s with mem := { s.mem with dbuf := bufWrite s.mem.dbuf (ilvIndex k) c }, p := s.p + 1 } = .next t) ∨
      (162 ≤ ilvIndex k ∧ ilvEnd k s = .next t) := by
  simp only [exec, execIlvStep]
  split
  · rename_i h
    have hge : ¬ 162 ≤ ilvIndex k := by omega
    simp only [orFault_next_iff, memRead_ok_iff, memWrite_ok_iff, h, hge, true_and, false_and, or_false]
    constructor
    · rintro ⟨c, ⟨hp, hc⟩, d, rfl, ht⟩
      exact ⟨c, hp, hc, ht⟩
    · rintro ⟨c, hp, hc, ht⟩
      exact ⟨c, ⟨hp, hc⟩, _, rfl, ht⟩
  · rename_i h
    have hge : 162 ≤ ilvIndex k := by omega
    simp [h, hge]

/-- `MRG_STEP` at a written element forms one symbol (R176). -/
theorem exec_mrgStep_of_lt {k : Byte} {s : State} {sync d : BitVec 1} (hk : k.toNat < 162)
    (hs : syncRom[k.toNat]? = some sync) (hd : bufRead s.mem.dbuf k.toNat = some d) :
    exec (.mrgStep k) s = .next
      (State.advance
        { s with mem := { s.mem with ybuf := bufWrite s.mem.ybuf k.toNat (symbolOf sync d) } } k 161 .emit) := by
  simp [exec, execMrgStep, memRead, memWrite, romRead, hk, hs, hd]

/-- `MRG_STEP` goes on only where it forms a symbol. -/
theorem exec_mrgStep_next_iff {k : Byte} {s t : State} :
    exec (.mrgStep k) s = .next t ↔
      ∃ sync d, k.toNat < 162 ∧ syncRom[k.toNat]? = some sync ∧ bufRead s.mem.dbuf k.toNat = some d ∧
        t = State.advance
          { s with mem := { s.mem with ybuf := bufWrite s.mem.ybuf k.toNat (symbolOf sync d) } } k 161 .emit := by
  simp only [exec, execMrgStep, orFault_next_iff, romRead_ok_iff, memRead_ok_iff, memWrite_ok_iff]
  constructor
  · rintro ⟨sync, hs, d, ⟨hk, hd⟩, y, ⟨-, rfl⟩, ht⟩
    cases ht
    exact ⟨sync, d, hk, hs, hd, rfl⟩
  · rintro ⟨sync, d, hk, hs, hd, rfl⟩
    exact ⟨sync, hs, d, ⟨hk, hd⟩, _, ⟨hk, rfl⟩, rfl⟩

/-- `EMIT_STEP` waits while `sym_ready` = 0 (R190). -/
theorem exec_emitStep_wait {k : Byte} {s : State} (h : s.ports.symReady = false) :
    exec (.emitStep k) s = .next s := by
  simp [exec, execEmitStep, h]

/-- `EMIT_STEP` at a written element hands one symbol over when it is taken (R190). -/
theorem exec_emitStep_taken {k : Byte} {s : State} {v : BitVec 2} (h : s.ports.symReady = true)
    (hk : k.toNat < 162) (hv : bufRead s.mem.ybuf k.toNat = some v) :
    exec (.emitStep k) s = .next (if k = 161 then (s.emit k v).finish else (s.emit k v).setK (k + 1)) := by
  simp [exec, execEmitStep, memRead, h, hk, hv]

/-- `EMIT_STEP` waits, or hands over a written element. -/
theorem exec_emitStep_next_iff {k : Byte} {s t : State} :
    exec (.emitStep k) s = .next t ↔
      (s.ports.symReady = false ∧ t = s) ∨
      (∃ v, s.ports.symReady = true ∧ k.toNat < 162 ∧ bufRead s.mem.ybuf k.toNat = some v ∧
        t = if k = 161 then (s.emit k v).finish else (s.emit k v).setK (k + 1)) := by
  simp only [exec, execEmitStep]
  split
  · rename_i h
    simp only [orFault_next_iff, memRead_ok_iff, h, Bool.true_eq_false, false_and, false_or, true_and]
    constructor
    · rintro ⟨v, ⟨hk, hv⟩, ht⟩
      cases ht
      exact ⟨v, hk, hv, rfl⟩
    · rintro ⟨v, hk, hv, rfl⟩
      exact ⟨v, ⟨hk, hv⟩, rfl⟩
  · rename_i h
    simp [h, eq_comm]

/-- One step that goes on: `RESET` under `rst`, else the selected operation; then the host's move. -/
theorem step_next_iff {s t : State} :
    step s = .next t ↔
      ∃ i u, (if s.ports.rst then i = .reset else decodeSequencer s.ph s.k = .ok i) ∧ exec i s = .next u ∧
        t = u.hostMove := by
  rw [step_eq]
  split
  · simp [afterStep_next_iff]
  · split
    · rename_i i hi
      simp [afterStep_next_iff, hi]
    · rename_i e he
      simp [he]

/-- The operation a sequencer word selects is well formed, is not `RESET`, and has that word as its encoding. -/
theorem decodeSequencer_ok {ph : BitVec 3} {k : Byte} {i : Instr} (h : decodeSequencer ph k = .ok i) :
    i.wf = true ∧ i ≠ .reset ∧ encode i = selectionWord false ph k := by
  unfold decodeSequencer packStep at h
  repeat' split at h
  all_goals cases h
  all_goals simp_all [Instr.wf, encode]

end Sys2Proof.Machine
end

