-- ==== Sys2Proof/Laws/Operands.lean ====
section
/-! SUPPORT. The bounds and the injectivity of the character values (spec/30_encoding.md R73 to R75). -/

namespace Sys2Proof.Machine

theorem v37_le {c : Byte} {n : Nat} (h : v37 c = some n) : n ≤ 36 := by
  unfold v37 at h
  simp only [isDigit, isUpper, Bool.and_eq_true, decide_eq_true_eq] at h
  repeat' split at h
  all_goals (simp at h; try omega)

theorem v10_le {c : Byte} {n : Nat} (h : v10 c = some n) : n ≤ 9 := by
  unfold v10 at h
  simp only [isDigit, Bool.and_eq_true, decide_eq_true_eq] at h
  split at h
  all_goals (simp at h; try omega)

theorem v27_le {c : Byte} {n : Nat} (h : v27 c = some n) : n ≤ 26 := by
  unfold v27 at h
  simp only [isUpper, Bool.and_eq_true, decide_eq_true_eq] at h
  repeat' split at h
  all_goals (simp at h; try omega)

theorem vAR_le {c : Byte} {n : Nat} (h : vAR c = some n) : n ≤ 17 := by
  unfold vAR at h
  simp only [isAtoR, Bool.and_eq_true, decide_eq_true_eq] at h
  split at h
  all_goals (simp at h; try omega)

theorem v37_injective {a b : Byte} {n : Nat} (h : v37 a = some n) (h' : v37 b = some n) : a = b := by
  apply BitVec.eq_of_toNat_eq
  unfold v37 at h h'
  simp only [isDigit, isUpper, Bool.and_eq_true, decide_eq_true_eq] at h h'
  repeat' split at h
  all_goals repeat' split at h'
  all_goals simp at h h'
  all_goals (try subst_vars)
  all_goals (try omega)

theorem v10_injective {a b : Byte} {n : Nat} (h : v10 a = some n) (h' : v10 b = some n) : a = b := by
  apply BitVec.eq_of_toNat_eq
  unfold v10 at h h'
  simp only [isDigit, Bool.and_eq_true, decide_eq_true_eq] at h h'
  split at h
  all_goals split at h'
  all_goals simp at h h'
  omega

theorem v27_injective {a b : Byte} {n : Nat} (h : v27 a = some n) (h' : v27 b = some n) : a = b := by
  apply BitVec.eq_of_toNat_eq
  unfold v27 at h h'
  simp only [isUpper, Bool.and_eq_true, decide_eq_true_eq] at h h'
  repeat' split at h
  all_goals repeat' split at h'
  all_goals simp at h h'
  all_goals (try subst_vars)
  all_goals (try omega)

theorem vAR_injective {a b : Byte} {n : Nat} (h : vAR a = some n) (h' : vAR b = some n) : a = b := by
  apply BitVec.eq_of_toNat_eq
  unfold vAR at h h'
  simp only [isAtoR, Bool.and_eq_true, decide_eq_true_eq] at h h'
  split at h
  all_goals split at h'
  all_goals simp at h h'
  omega

/-- A digit is its own folding: only letters change under `up`. -/
theorem up_of_isDigit : ∀ c : Byte, isDigit (up c) = true → up c = c := by decide

end Sys2Proof.Machine
end

