-- ==== Sys2Proof/Laws/PerInstr.lean ====
section
/-! SUPPORT. A statement about every operation as syntax: the row of the operation map that
spec/opcode_table.json gives it selects the sequencer word the encoder writes (spec/30_encoding.md R80). -/

/-- The operation's own row selects its encoding. -/
def Sys2Proof.Laws.RowSelects.Statement (i : Sys2Proof.Instr) : Prop :=
  i.wf = true → i.row.selects ((Sys2Proof.encode i).extractLsb' 0 11) = true

namespace Sys2Proof.Laws.RowSelects

theorem reset : Statement .reset := by unfold Statement; decide

theorem accept : Statement .accept := by unfold Statement; decide

theorem callNorm : Statement .callNorm := by unfold Statement; decide

theorem gridChk : Statement .gridChk := by unfold Statement; decide

theorem pwrLookup : Statement .pwrLookup := by unfold Statement; decide

theorem callPack : Statement .callPack := by unfold Statement; decide

theorem gridPack : Statement .gridPack := by unfold Statement; decide

theorem assemble : Statement .assemble := by unfold Statement; decide

/-- The operand of an encoding with a `K` field, and the row's test of it, by running over the 256 values of `K`. -/
theorem convStep (k : Byte) : Statement (.convStep k) := by
  unfold Statement; revert k; decide

theorem ilvStep (k : Byte) : Statement (.ilvStep k) := by
  unfold Statement; revert k; decide

theorem mrgStep (k : Byte) : Statement (.mrgStep k) := by
  unfold Statement; revert k; decide

theorem emitStep (k : Byte) : Statement (.emitStep k) := by
  unfold Statement; revert k; decide

end Sys2Proof.Laws.RowSelects
end

