-- ==== Sys2Proof/Laws/Run.lean ====
section
/-! SUPPORT. Runs of the machine, one step at a time, and the packaged induction over the states a run from reset
reaches. -/

namespace Sys2Proof.Machine

/-- No element of an empty buffer breaks the canonical form. -/
@[simp] theorem Buf.wf_nil {w : Nat} : Buf.wf ([] : Buf w) :=
  ⟨List.Pairwise.nil, fun _ h => nomatch h⟩

/-- A run of no step stays. -/
@[simp] theorem run_zero (s : State) : Host.Core.run core 0 s = .next s := rfl

/-- A run goes on from the next state of its first step. -/
theorem run_succ_of_next {s t : State} (n : Nat) (h : step s = .next t) :
    Host.Core.run core (n + 1) s = Host.Core.run core n t := by
  have h' : core.step s = .next t := h
  have e := Host.Core.run.eq_2 core s n
  rw [h'] at e
  exact e

/-- The first step of a run that goes on. -/
theorem exists_step_of_run {n : Nat} {s t : State} (h : Host.Core.run core (n + 1) s = .next t) :
    ∃ u, step s = .next u ∧ Host.Core.run core n u = .next t := by
  have e := (Host.Core.run.eq_2 core s n).symm.trans h
  cases hs : step s with
  | next u =>
    have h' : core.step s = .next u := hs
    rw [h'] at e
    exact ⟨u, rfl, e⟩
  | fault r =>
    have h' : core.step s = .fault r := hs
    rw [h'] at e
    cases e
  | refused r =>
    have h' : core.step s = .refused r := hs
    rw [h'] at e
    cases e

/-- A run is a run of its first part, then of the rest. -/
theorem run_add {m n : Nat} {s t : State} (h : Host.Core.run core m s = .next t) :
    Host.Core.run core (m + n) s = Host.Core.run core n t := by
  induction m generalizing s with
  | zero =>
    cases h
    rw [Nat.zero_add]
  | succ m ih =>
    obtain ⟨u, hu, h⟩ := exists_step_of_run h
    rw [show m + 1 + n = (m + n) + 1 by omega, run_succ_of_next _ hu]
    exact ih h

/-- What every step keeps holds at the end of a run. -/
theorem run_keeps {I : State → Prop} (keeps : ∀ s t, I s → step s = .next t → I t) {n : Nat} {s t : State} (hs : I s)
    (h : Host.Core.run core n s = .next t) : I t := by
  induction n generalizing s with
  | zero =>
    cases h
    exact hs
  | succ n ih =>
    obtain ⟨u, hu, h⟩ := exists_step_of_run h
    exact ih (keeps s u hs hu) h

/-- What holds after reset with any host, and every step keeps, holds of every reachable state. -/
theorem reachable_induction {I : State → Prop} (start : ∀ ports host, I (State.boot ports host))
    (keeps : ∀ s t, I s → step s = .next t → I t) {t : State} (h : t.Reachable) : I t := by
  obtain ⟨ports, host, n, h⟩ := h
  exact run_keeps keeps (start ports host) h

/-- Operations run one after another: the first, then the rest. -/
theorem runOps_cons_of_next {i : Instr} {rest : List Instr} {s t : State} (h : exec i s = .next t) :
    runOps (i :: rest) s = runOps rest t := by
  simp [runOps, h]

/-- A sequence of operations is its first part, then the rest. -/
theorem runOps_append {a b : List Instr} {s t : State} (h : runOps a s = .next t) :
    runOps (a ++ b) s = runOps b t := by
  induction a generalizing s with
  | nil =>
    cases h
    rfl
  | cons i a ih =>
    cases hi : exec i s with
    | next u =>
      rw [runOps_cons_of_next hi] at h
      rw [List.cons_append, runOps_cons_of_next hi]
      exact ih h
    | fault e => simp [runOps, hi] at h
    | refused e => simp [runOps, hi] at h

end Sys2Proof.Machine
end

