-- ==== Sys2Proof/Laws/Transaction.lean ====
section
/-! SUPPORT. The small laws of the transaction as a function: the encoder's window, the interleaver's counts and table,
the frame; and what a decoded sequencer word says of `PH` and `K`. -/

namespace Sys2Proof.Machine

@[simp] theorem code_idle : Phase.idle.code = 0 := rfl
@[simp] theorem code_pack : Phase.pack.code = 1 := rfl
@[simp] theorem code_conv : Phase.conv.code = 2 := rfl
@[simp] theorem code_ilv : Phase.ilv.code = 3 := rfl
@[simp] theorem code_merge : Phase.merge.code = 4 := rfl
@[simp] theorem code_emit : Phase.emit.code = 5 := rfl

/-- `PH` and `K` from the operation the sequencer word selects. -/
theorem decodeSequencer_cases {ph : BitVec 3} {k : Byte} {i : Instr} (h : decodeSequencer ph k = .ok i) :
    match i with
    | .reset => False
    | .accept => ph = 0 ∧ k = 0
    | .callNorm => ph = 1 ∧ k = 0
    | .gridChk => ph = 1 ∧ k = 1
    | .pwrLookup => ph = 1 ∧ k = 2
    | .callPack => ph = 1 ∧ k = 3
    | .gridPack => ph = 1 ∧ k = 4
    | .assemble => ph = 1 ∧ k = 5
    | .convStep j => ph = 2 ∧ j = k ∧ k.toNat ≤ 80
    | .ilvStep j => ph = 3 ∧ j = k
    | .mrgStep j => ph = 4 ∧ j = k ∧ k.toNat ≤ 161
    | .emitStep j => ph = 5 ∧ j = k ∧ k.toNat ≤ 161 := by
  unfold decodeSequencer packStep at h
  repeat' split at h
  all_goals cases h
  all_goals simp_all

/-- `K + 1` as a number, below the counter's top. -/
theorem toNat_succ_of_lt {k : Byte} {m : Nat} (h : k.toNat < m) (hm : m ≤ 255) : (k + 1).toNat = k.toNat + 1 := by
  rw [BitVec.toNat_add]
  simp
  omega

/-- The host's move touches the ports and the host's list alone. -/
theorem hostMove_eq (s : State) : s.hostMove = { s with ports := s.hostMove.ports, host := s.hostMove.host } := by
  unfold State.hostMove
  split <;> rfl

/-- A sum of distinct powers of two has exactly those bits. -/
theorem sum_two_pow_testBit (f : Nat → Bool) (m : Nat) :
    (List.range m).foldl (fun a t => a + if f t then 2 ^ t else 0) 0 < 2 ^ m ∧
      ∀ t, ((List.range m).foldl (fun a t => a + if f t then 2 ^ t else 0) 0).testBit t = (decide (t < m) && f t) := by
  induction m with
  | zero => simp
  | succ m ih =>
    rw [List.range_succ, List.foldl_append, List.foldl_cons, List.foldl_nil]
    obtain ⟨hlt, hbit⟩ := ih
    generalize (List.range m).foldl (fun a t => a + if f t then 2 ^ t else 0) 0 = x at *
    have hpow : 2 ^ (m + 1) = 2 ^ m + 2 ^ m := by rw [Nat.pow_succ]; omega
    constructor
    · split <;> omega
    · intro t
      cases hf : f m with
      | false =>
        simp only [Bool.false_eq_true, if_false, Nat.add_zero, hbit]
        by_cases ht : t = m
        · subst ht
          simp [hf]
        · have : (t < m + 1) = (t < m) := by apply propext; omega
          simp [this]
      | true =>
        simp only [if_true]
        rw [Nat.add_comm]
        by_cases ht : t = m
        · subst ht
          rw [Nat.testBit_two_pow_add_eq, hbit]
          simp [hf]
        · by_cases hl : t < m
          · rw [Nat.testBit_two_pow_add_gt hl, hbit]
            have : t < m + 1 := by omega
            simp [hl, this]
          · have : ¬ t < m + 1 := by omega
            rw [Nat.testBit_lt_two_pow]
            · simp [this]
            · calc 2 ^ m + x < 2 ^ (m + 1) := by omega
                _ ≤ 2 ^ t := Nat.pow_le_pow_right (by omega) (by omega)

/-- Bit `t` of the register after step `k` is the input bit of `t` steps ago (R147). -/
theorem getLsbD_window (n : BitVec 50) (k t : Nat) :
    (window n k).getLsbD t = (decide (t < 32) && (decide (t ≤ k) && inputBit n (k - t))) := by
  unfold window
  rw [BitVec.getLsbD_ofNat, (sum_two_pow_testBit _ 32).2]
  by_cases h : t < 32 <;> simp [h]

/-- The new bit at 0, the old bits one higher, bit 31 dropped (R144). -/
theorem getLsbD_shiftIn (r : BitVec 32) (b : Bool) (t : Nat) :
    (shiftIn r b).getLsbD t = (decide (t < 32) && if t = 0 then b else r.getLsbD (t - 1)) := by
  unfold shiftIn
  simp only [BitVec.getLsbD_or, BitVec.getLsbD_shiftLeft]
  by_cases h0 : t = 0
  · subst h0
    simp
  · by_cases h : t < 32 <;> simp [h, h0]

/-- One shift takes the register from step `k - 1` to step `k`. -/
theorem shiftIn_window (n : BitVec 50) {r : BitVec 32} {k : Nat} (h : r = if k = 0 then 0 else window n (k - 1)) :
    shiftIn r (inputBit n k) = window n k := by
  apply BitVec.eq_of_getLsbD_eq
  intro t ht
  rw [getLsbD_shiftIn, getLsbD_window, h]
  by_cases h0 : t = 0
  · subst h0
    simp
  · simp only [h0, if_false]
    split
    · rename_i hk
      subst hk
      simp [h0]
    · rw [getLsbD_window]
      have e1 : (t - 1 ≤ k - 1) = (t ≤ k) := by apply propext; omega
      have e2 : k - 1 - (t - 1) = k - t := by omega
      have e3 : t - 1 < 32 := by omega
      simp [e1, e2, e3]

/-- The parity of a masked register is the XOR over the mask's positions. -/
theorem parity_and (v g : BitVec 32) {taps : List Nat} (h : (List.range 32).filter (fun t => g.getLsbD t) = taps) :
    parity (v &&& g) = xorAt v taps := by
  unfold parity xorAt
  rw [← h, List.foldl_filter]
  congr 1
  funext a t
  rw [BitVec.getLsbD_and]
  cases g.getLsbD t <;> simp

/-- The even elements of the coded stream are the `G0` parities (R145). -/
theorem codeBit_even (n : BitVec 50) (k : Nat) :
    codeBit n (2 * k) = BitVec.ofBool (parity (window n k &&& G0)) := by
  unfold codeBit
  rw [show 2 * k / 2 = k by omega, if_pos (by omega)]

/-- The odd elements of the coded stream are the `G1` parities (R145). -/
theorem codeBit_odd (n : BitVec 50) (k : Nat) :
    codeBit n (2 * k + 1) = BitVec.ofBool (parity (window n k &&& G1)) := by
  unfold codeBit
  rw [show (2 * k + 1) / 2 = k by omega, if_neg (by omega)]

/-- One more step makes one more copy, or none. -/
theorem copiesBefore_succ (k : Nat) :
    copiesBefore (k + 1) = copiesBefore k + if ilvIndex (BitVec.ofNat 8 k) < 162 then 1 else 0 := by
  unfold copiesBefore
  rw [List.range_succ, List.countP_append]
  simp

/-- The copies never become fewer. -/
theorem copiesBefore_mono {a b : Nat} (h : a ≤ b) : copiesBefore a ≤ copiesBefore b := by
  induction b with
  | zero =>
    obtain rfl : a = 0 := by omega
    exact Nat.le_refl _
  | succ b ih =>
    by_cases hh : a = b + 1
    · subst hh
      exact Nat.le_refl _
    · rw [copiesBefore_succ]
      have := ih (by omega)
      omega

set_option maxRecDepth 40000 in
/-- The 256 steps make 162 copies (R162). -/
theorem copiesBefore_256 : copiesBefore 256 = 162 := by decide

/-- A step that copies finds `P` below 162. -/
theorem copiesBefore_lt {k : Nat} (h : k < 256) (hi : ilvIndex (BitVec.ofNat 8 k) < 162) : copiesBefore k < 162 := by
  have h1 := copiesBefore_succ k
  rw [if_pos hi] at h1
  have h2 := copiesBefore_mono (show k + 1 ≤ 256 by omega)
  rw [copiesBefore_256] at h2
  omega

/-- The kept elements of a mapped range, each at the place the kept ones before it leave. -/
theorem getElem?_filter_map_range (f : Nat → Nat) (p : Nat → Bool) {m k : Nat} (hk : k < m) (hp : p (f k) = true) :
    (((List.range m).map f).filter p)[(List.range k).countP fun i => p (f i)]? = some (f k) := by
  have hlen : ∀ m, (((List.range m).map f).filter p).length = (List.range m).countP fun i => p (f i) := by
    intro m
    rw [← List.countP_eq_length_filter, List.countP_map]
    rfl
  induction m with
  | zero => omega
  | succ m ih =>
    rw [List.range_succ, List.map_append, List.filter_append]
    by_cases h : k = m
    · subst h
      rw [List.getElem?_append_right (by rw [hlen]), hlen]
      simp [hp]
    · have h' := ih (by omega)
      rw [List.getElem?_append_left (List.getElem?_eq_some_iff.mp h').1]
      exact h'

/-- The copy made at `K` = `k` is entry `P` of the permutation (R163). -/
theorem permTable_copiesBefore {k : Nat} (h : k < 256) (hi : ilvIndex (BitVec.ofNat 8 k) < 162) :
    permTable[copiesBefore k]? = some (ilvIndex (BitVec.ofNat 8 k)) :=
  getElem?_filter_map_range (fun k => ilvIndex (BitVec.ofNat 8 k)) (fun x => decide (x < 162)) h (by simpa using hi)

set_option maxRecDepth 100000 in
/-- No destination twice (R162). -/
theorem permTable_nodup : permTable.Nodup := by decide

/-- The element written at `K` = `k` comes from coded bit `P` (R163). -/
theorem permInverse_ilvIndex {k : Nat} (h : k < 256) (hi : ilvIndex (BitVec.ofNat 8 k) < 162) :
    permInverse (ilvIndex (BitVec.ofNat 8 k)) = copiesBefore k := by
  obtain ⟨hlt, he⟩ := List.getElem?_eq_some_iff.mp (permTable_copiesBefore h hi)
  unfold permInverse
  rw [← he]
  exact List.Nodup.idxOf_getElem permTable_nodup _ hlt

/-- The frame's first `k + 1` pairs are the first `k` and the pair of `k`. -/
theorem frameOf_take_succ (n : BitVec 50) {k : Byte} (h : k.toNat < 162) :
    (frameOf n).take (k.toNat + 1) = (frameOf n).take k.toNat ++ [(k, symbolAt n k.toNat)] := by
  unfold frameOf
  rw [← List.map_take, ← List.map_take, List.take_range, List.take_range, Nat.min_eq_left (by omega),
    Nat.min_eq_left (by omega), List.range_succ]
  simp

/-- The frame has 162 pairs. -/
@[simp] theorem frameOf_length (n : BitVec 50) : (frameOf n).length = 162 := by simp [frameOf]

set_option maxRecDepth 20000 in
/-- The sync ROM has 162 elements (R178). -/
@[simp] theorem syncRom_length : syncRom.length = 162 := by decide

end Sys2Proof.Machine
end

