-- ==== Sys2Proof/Tests/Slice0.lean ====
section
/-! SUPPORT. Tests against the spec's own tables and examples, and a witness for the hypotheses of each statement. -/

namespace Sys2Proof.Tests

open Sys2Proof.Machine

/-- The next state of an outcome, to compare. -/
def nextOf (r : Result) : Option State :=
  match r with
  | .next s => some s
  | _ => none

/-- The fault of an outcome, to compare. -/
def faultOf (r : Result) : Option Fault :=
  match r with
  | .fault e => some e
  | _ => none

/-- The refusal of an outcome, to compare. -/
def refusalOf (r : Result) : Option Refusal :=
  match r with
  | .refused e => some e
  | _ => none

/-- The decoded operation, to compare. -/
def okOf {α ε : Type} (x : Except ε α) : Option α :=
  match x with
  | .ok a => some a
  | .error _ => none

/-! ### WellFormed: an ill-formed operation for each range of R80 -/

theorem test_wf_refuses_convStep_81 : (Instr.convStep 81).wf = false := by decide
theorem test_wf_refuses_mrgStep_162 : (Instr.mrgStep 162).wf = false := by decide
theorem test_wf_refuses_emitStep_162 : (Instr.emitStep 162).wf = false := by decide
theorem test_wf_takes_the_last_counters :
    (Instr.convStep 80).wf = true ∧ (Instr.ilvStep 255).wf = true ∧ (Instr.mrgStep 161).wf = true ∧
      (Instr.emitStep 161).wf = true := by decide

/-! ### Decoding: the word of every constructor, written out bit by bit as PH, K (R80) -/

theorem test_decode_reset : okOf (decode 0b1_000_00000000) = some .reset := by decide
theorem test_decode_reset_overrides : okOf (decode 0b1_101_00000111) = some .reset := by decide
theorem test_decode_accept : okOf (decode 0b0_000_00000000) = some .accept := by decide
theorem test_decode_callNorm : okOf (decode 0b0_001_00000000) = some .callNorm := by decide
theorem test_decode_gridChk : okOf (decode 0b0_001_00000001) = some .gridChk := by decide
theorem test_decode_pwrLookup : okOf (decode 0b0_001_00000010) = some .pwrLookup := by decide
theorem test_decode_callPack : okOf (decode 0b0_001_00000011) = some .callPack := by decide
theorem test_decode_gridPack : okOf (decode 0b0_001_00000100) = some .gridPack := by decide
theorem test_decode_assemble : okOf (decode 0b0_001_00000101) = some .assemble := by decide
theorem test_decode_convStep : okOf (decode 0b0_010_01010000) = some (.convStep 80) := by decide
theorem test_decode_ilvStep : okOf (decode 0b0_011_11111111) = some (.ilvStep 255) := by decide
theorem test_decode_mrgStep : okOf (decode 0b0_100_10100001) = some (.mrgStep 161) := by decide
theorem test_decode_emitStep : okOf (decode 0b0_101_00001010) = some (.emitStep 10) := by decide

/-- The reserved words of T30-5. -/
theorem test_decode_reserved :
    okOf (decode 0x251) = none ∧ okOf (decode 0x4A2) = none ∧ okOf (decode 0x5A2) = none ∧ okOf (decode 0x106) = none ∧
      okOf (decode 0x001) = none ∧ okOf (decode 0x600) = none ∧ okOf (decode 0x7FF) = none := by decide

/-- `REQ` of `ENCODE "K1JT", "FN20", 30`, field by field (T30-1). -/
theorem test_request_record :
    Req.ofBits 0x22598A52A00004464E323000001E =
      ⟨4, ⟨0x4B, 0x31, 0x4A, 0x54, 0, 0⟩, 4, ⟨0x46, 0x4E, 0x32, 0x30, 0, 0⟩, 0x1E⟩ := by decide

/-! ### The constant tables (R178, R273; T70-4) and the permutation (R163) -/

set_option maxRecDepth 40000 in
theorem test_sync_counts :
    syncRom.length = 162 ∧ syncRom.countP (· = 1) = 63 ∧
      ((List.range 162).map fun i => i * (syncRom.getD i 0).toNat).sum = 5118 := by decide

set_option maxRecDepth 40000 in
/-- The 162-bit number of R178, element 0 the most significant bit. -/
theorem test_sync_number :
    syncRom.foldl (fun a b => 2 * a + b.toNat) 0 = 0x302389780940B34686AA4B1A8824ECD1C14C06B18 := by decide

theorem test_power_table :
    pwrRom.length = 28 ∧ (pwrRom.map BitVec.toInt).sum = 420 ∧ (pwrRom.map BitVec.toInt).Pairwise (· < ·) ∧
      pwrRom.head?.map BitVec.toInt = some (-30) ∧ pwrRom.getLast?.map BitVec.toInt = some 60 := by decide

/-- The tap positions of R142 are the 1 bits of the constants. -/
theorem test_taps :
    (List.range 32).filter (fun t => G0.getLsbD t) = tapsG0 ∧
      (List.range 32).filter (fun t => G1.getLsbD t) = tapsG1 := by decide

set_option maxRecDepth 40000 in
/-- `PERM[0..161]` as R163 prints it. -/
theorem test_permutation_table :
    permTable =
      [0, 128, 64, 32, 160, 96, 16, 144, 80, 48, 112, 8, 136, 72, 40, 104, 24, 152] ++
      [88, 56, 120, 4, 132, 68, 36, 100, 20, 148, 84, 52, 116, 12, 140, 76, 44, 108] ++
      [28, 156, 92, 60, 124, 2, 130, 66, 34, 98, 18, 146, 82, 50, 114, 10, 138, 74] ++
      [42, 106, 26, 154, 90, 58, 122, 6, 134, 70, 38, 102, 22, 150, 86, 54, 118, 14] ++
      [142, 78, 46, 110, 30, 158, 94, 62, 126, 1, 129, 65, 33, 161, 97, 17, 145, 81] ++
      [49, 113, 9, 137, 73, 41, 105, 25, 153, 89, 57, 121, 5, 133, 69, 37, 101, 21] ++
      [149, 85, 53, 117, 13, 141, 77, 45, 109, 29, 157, 93, 61, 125, 3, 131, 67, 35] ++
      [99, 19, 147, 83, 51, 115, 11, 139, 75, 43, 107, 27, 155, 91, 59, 123, 7, 135] ++
      [71, 39, 103, 23, 151, 87, 55, 119, 15, 143, 79, 47, 111, 31, 159, 95, 63, 127] := by decide

/-! ### Operand forms -/

/-- T30-3. -/
theorem test_character_values :
    v37 0x30 = some 0 ∧ v37 0x39 = some 9 ∧ v37 0x41 = some 10 ∧ v37 0x5A = some 35 ∧ v37 0x20 = some 36 ∧
      v27 0x41 = some 0 ∧ v27 0x5A = some 25 ∧ v27 0x20 = some 26 ∧ vAR 0x52 = some 17 ∧ vAR 0x53 = none ∧
      v10 0x39 = some 9 ∧ v10 0x41 = none := by decide

/-- T30-3. -/
theorem test_case_folding :
    up 0x6B = 0x4B ∧ up 0x4B = 0x4B ∧ up 0x31 = 0x31 ∧ up 0x7B = 0x7B ∧ up 0x60 = 0x60 := by decide

/-- T41-7. -/
theorem test_parity :
    parity 0 = false ∧ parity 1 = true ∧ parity 0x80000000 = true ∧ parity 0xFFFFFFFF = false ∧
      parity 0xF2D05351 = true ∧ parity 0xE4613C47 = true ∧ parity 0xE0401041 = true ∧ parity 0x11 = false := by decide

/-- T42-1. -/
theorem test_rev8 :
    rev8 0x01 = 0x80 ∧ rev8 0x03 = 0xC0 ∧ rev8 0x45 = 0xA2 ∧ rev8 0x85 = 0xA1 ∧ rev8 0x0F = 0xF0 ∧
      rev8 0xFE = 0x7F := by decide

/-- T40-2, T40-3, T40-5, T40-7: accepted callsigns and their fields. -/
theorem test_callsign_fields :
    normalise ⟨0x57, 0x31, 0x41, 0, 0, 0⟩ 3 = ⟨0x20, 0x57, 0x31, 0x41, 0x20, 0x20⟩ ∧
      normalise ⟨0x4B, 0x4B, 0x31, 0x41, 0x41, 0x41⟩ 6 = ⟨0x4B, 0x4B, 0x31, 0x41, 0x41, 0x41⟩ ∧
      normalise ⟨0x4B, 0x31, 0x32, 0x41, 0x42, 0⟩ 5 = ⟨0x4B, 0x31, 0x32, 0x41, 0x42, 0x20⟩ := by decide

/-- T40-14 to T40-24: rejected callsigns `12345`, `N0CALL`, `W1`, `K1JT/P`, length 7, `ABC1D`, `K1JTAB`, `K1J7`. -/
theorem test_callsign_rejects :
    callOk ⟨0x31, 0x32, 0x33, 0x34, 0x35, 0⟩ 5 = false ∧ callOk ⟨0x4E, 0x30, 0x43, 0x41, 0x4C, 0x4C⟩ 6 = false ∧
      callOk ⟨0x57, 0x31, 0, 0, 0, 0⟩ 2 = false ∧ callOk ⟨0x4B, 0x31, 0x4A, 0x54, 0x2F, 0x50⟩ 6 = false ∧
      callOk ⟨0x4B, 0x4B, 0x31, 0x41, 0x41, 0x41⟩ 7 = false ∧ callOk ⟨0x41, 0x42, 0x43, 0x31, 0x44, 0⟩ 5 = false ∧
      callOk ⟨0x4B, 0x31, 0x4A, 0x54, 0x41, 0x42⟩ 6 = false ∧ callOk ⟨0x4B, 0x31, 0x4A, 0x37, 0, 0⟩ 4 = false := by
  decide

/-- T40-29: the smallest and the largest packed callsign. -/
theorem test_packed_callsign_extremes :
    packCall ⟨0x30, 0x30, 0x30, 0x41, 0x41, 0x41⟩ = some 0 ∧
      packCall ⟨0x20, 0x5A, 0x39, 0x5A, 0x20, 0x20⟩ = some 262176830 := by decide

/-- T40-37 to T40-48: locators `FN31pr`, `ZZ99`, `FN2`, `FN20XY`, `FNA0`. -/
theorem test_locators :
    gridOk ⟨0x46, 0x4E, 0x33, 0x31, 0x70, 0x72⟩ 6 = true ∧ gridOk ⟨0x5A, 0x5A, 0x39, 0x39, 0, 0⟩ 4 = false ∧
      gridOk ⟨0x46, 0x4E, 0x32, 0, 0, 0⟩ 3 = false ∧ gridOk ⟨0x46, 0x4E, 0x32, 0x30, 0x58, 0x59⟩ 6 = false ∧
      gridOk ⟨0x46, 0x4E, 0x41, 0x30, 0, 0⟩ 4 = false := by decide

/-- T40-30, T40-31, T40-34, T40-35. -/
theorem test_packed_locators :
    packGrid ⟨0x41, 0x41, 0x30, 0x30, 0, 0⟩ = some 32220 ∧ packGrid ⟨0x52, 0x52, 0x39, 0x39, 0, 0⟩ = some 179 ∧
      packGrid ⟨0x52, 0x41, 0x39, 0x30, 0, 0⟩ = some 0 ∧ packGrid ⟨0x41, 0x52, 0x30, 0x39, 0, 0⟩ = some 32399 := by
  decide

set_option maxRecDepth 40000 in
/-- T40-54: 28 of the 256 values are accepted, and 5 and -98 are not. -/
theorem test_powers :
    ((List.range 256).countP fun d => pwrOk (BitVec.ofNat 8 d)) = 28 ∧ pwrOk 0x05 = false ∧ pwrOk 0x9E = false := by
  decide

/-! ### One step of each operation, on the request `K1JT`, `FN20`, 30 (T45-2) -/

/-- The request of T0-1. -/
def req : Req := ⟨4, ⟨0x4B, 0x31, 0x4A, 0x54, 0, 0⟩, 4, ⟨0x46, 0x4E, 0x32, 0x30, 0, 0⟩, 0x1E⟩

/-- Ports that present it, with the host ready. -/
def asking : Ports := ⟨false, true, req, true⟩

/-- A busy state at the sequencer word `{ph, k}` with the request latched. -/
def busyAt (ph : BitVec 3) (k : Byte) : State :=
  { State.reset with ph := ph, k := k, busy := true, latch := req, ports := asking }

theorem test_accept :
    (nextOf (step (State.boot asking []))).map (fun t => (t.latch, t.status, t.ph, t.k)) =
      some (req, 0b00001, 1, 0) := by decide

theorem test_callNorm :
    (nextOf (step (busyAt 1 0))).map (fun t => (t.f, t.k)) = some (⟨0x20, 0x4B, 0x31, 0x4A, 0x54, 0x20⟩, 1) := by decide

/-- T60-4: `K1JT`, `ZZ99`, 5 raises `InvalidGrid`. -/
theorem test_gridChk_raises :
    (nextOf (step { busyAt 1 1 with latch := { req with grid := ⟨0x5A, 0x5A, 0x39, 0x39, 0, 0⟩ } })).map
      (fun t => (t.status, t.ph, t.k)) = some (0b01110, 0, 0) := by decide

theorem test_gridChk : (nextOf (step (busyAt 1 1))).map (fun t => (t.ph, t.k)) = some (1, 2) := by decide

theorem test_pwrLookup : (nextOf (step (busyAt 1 2))).map (fun t => (t.pw, t.k)) = some (94, 3) := by decide

theorem test_pwrLookup_raises :
    (nextOf (step { busyAt 1 2 with latch := { req with dbm := 5 } })).map (fun t => (t.status, t.pw)) =
      some (0b10010, 0) := by decide

theorem test_callPack :
    (nextOf (step { busyAt 1 3 with f := ⟨0x20, 0x4B, 0x31, 0x4A, 0x54, 0x20⟩ })).map (fun t => (t.n1, t.k)) =
      some (0xF70DDD7, 4) := by decide

theorem test_gridPack : (nextOf (step (busyAt 1 4))).map (fun t => (t.m, t.k)) = some (0x59CE, 5) := by decide

theorem test_assemble :
    (nextOf (step { busyAt 1 5 with n1 := 0xF70DDD7, m := 0x59CE, pw := 94, r := 0x80000000 })).map
      (fun t => (t.n, t.r, t.ph, t.k)) = some (0x3DC3775ECE75E, 0, 2, 0) := by decide

/-- The fifth row of the worked example of R144. -/
theorem test_convStep :
    (nextOf (step { busyAt 2 5 with n := 0x3DC3775ECE75E, r := 0x1E })).map (fun t => (t.r, t.mem.cbuf, t.k)) =
      some (0x3D, [(10, 0), (11, 0)], 6) := by decide

theorem test_convStep_last :
    (nextOf (step { busyAt 2 80 with p := 162 })).map (fun t => (t.ph, t.k, t.p)) = some (3, 0, 0) := by decide

/-- R161: at `K` = 4, `P` = 3 the step writes `DBUF[32]` from `CBUF[3]`. -/
theorem test_ilvStep_copies :
    (nextOf (step { busyAt 3 4 with p := 3, mem := ⟨[(3, 1)], [(0, 0)], []⟩ })).map (fun t => (t.mem.dbuf, t.p, t.k)) =
      some ([(0, 0), (32, 1)], 4, 5) := by decide

/-- R161: at `K` = 3 the step skips. -/
theorem test_ilvStep_skips :
    (nextOf (step { busyAt 3 3 with p := 3 })).map (fun t => (t.mem.dbuf, t.p, t.k)) = some ([], 3, 4) := by decide

/-- R176: `SYNC_ROM[0]` = 1, `DBUF[0]` = 1 gives 3. -/
theorem test_mrgStep :
    (nextOf (step { busyAt 4 0 with mem := ⟨[], [(0, 1)], []⟩ })).map (fun t => (t.mem.ybuf, t.k)) =
      some ([(0, 3)], 1) := by decide

theorem test_emitStep :
    (nextOf (step { busyAt 5 0 with mem := ⟨[], [], [(0, 3)]⟩ })).map (fun t => (t.out, t.k)) =
      some ([(0, 3)], 1) := by decide

/-- R190: the last symbol ends the transaction. -/
theorem test_emitStep_last :
    (nextOf (step { busyAt 5 161 with mem := ⟨[], [], [(161, 2)]⟩ })).map (fun t => (t.out, t.status, t.ph, t.k)) =
      some ([(161, 2)], 0b00010, 0, 0) := by decide

/-- T70-3: with `rst` = 1 the step taken in `EMIT` is `RESET`, and no symbol is handed over. -/
theorem test_reset_has_priority :
    (nextOf (step { busyAt 5 0 with ports := { asking with rst := true }, mem := ⟨[], [], [(0, 3)]⟩ })).map
      (fun t => (t.out, t.status, t.ph, t.mem)) = some ([], 0, 0, ⟨[], [], []⟩) := by decide

/-- T44-1: the symbol port at `K` = 161. -/
theorem test_symbol_port :
    ({ busyAt 5 161 with mem := ⟨[], [], [(161, 2)]⟩ } : State).symbolPort = some ⟨2, 0x02, 0xA1, true⟩ := by decide

/-- R40: an element not written is no zero. -/
theorem test_unwritten_faults :
    faultOf (step (busyAt 5 0)) = some (.unwrittenElement .ybuf 0) := by decide

/-- R82: a reserved word has no step. -/
theorem test_reserved_refused : refusalOf (step (busyAt 6 0)) = some (.reservedWord .phaseCode) := by decide

/-- A table word runs as the first operation after reset. -/
theorem test_withFetchWord :
    okOf (decode (State.reset.withFetchWord 16 0x250).selection) = some (.convStep 80) ∧
      okOf (decode (State.reset.withFetchWord 0 0).selection) = some .reset := by decide

/-! ### Witnesses: a concrete state that meets the hypotheses of each statement together -/

/-- The idle state with a request at the port satisfies the invariant. -/
theorem idle_inv : (State.boot asking []).Inv where
  memory := by decide
  index := by decide
  busy := by decide
  ready := ⟨.accept, rfl, ⟨rfl, rfl⟩, .inl rfl⟩

/-- The state after `ACCEPT` satisfies the invariant. -/
theorem packing_inv : (busyAt 1 0).Inv where
  memory := by decide
  index := by decide
  busy := by decide
  ready := ⟨.callNorm, rfl, ⟨rfl, rfl, rfl⟩, .inl rfl, by simp [State.packedTo]⟩

/-- The request of T0-1 is accepted. -/
theorem req_packs : pack req = .ok (packedWord req) := by
  have h1 : callOk req.call req.callLen = true := by decide
  have h2 : gridOk req.grid req.gridLen = true := by decide
  have h3 : pwrOk req.dbm = true := by decide
  simp [pack, h1, h2, h3]

/-- A finished success. -/
def finished : State :=
  { State.reset with latch := req, done := true, out := frameOf (packedWord req) }

/-- A finished success satisfies the invariant. -/
theorem finished_inv : finished.Inv where
  memory := by decide
  index := by decide
  busy := by decide
  ready := ⟨.accept, rfl, by
    have h : transact req = .ok (frameOf (packedWord req)) := by simp [transact, req_packs]
    show finished.resultShown
    simp only [State.resultShown, finished, h]
    simp [State.reset], .inl rfl⟩

/-- A request with an empty callsign. -/
def badPorts : Ports := ⟨false, true, ⟨0, ⟨0, 0, 0, 0, 0, 0⟩, 0, ⟨0, 0, 0, 0, 0, 0⟩, 0⟩, true⟩

/-- Two steps from reset with it: `ACCEPT`, `CALL_NORM` (T40-17). -/
theorem bad_request_finishes :
    Host.Core.run core 2 (State.boot badPorts []) =
      .next { State.reset with latch := badPorts.req, done := true, err := 2, ports := badPorts } := rfl

/-- Every element of a buffer written with 0. -/
def fullBuf : Buf 1 := (List.range 162).map fun i => (i, 0)

set_option maxRecDepth 40000 in
theorem fullBuf_is_full : ∀ j < 162, bufRead fullBuf j ≠ none := by decide

theorem witness_DecodeInvertsEncode :
    (Instr.convStep 80).wf = true ∧ okOf (decode 0x250) = some (.convStep 80) := by decide

theorem witness_OperationIsTheOneItsRowSelects :
    okOf (decode (selectionWord false 2 80)) = some (.convStep 80) ∧
      (Instr.convStep 80).row.selects ((2 : BitVec 3) ++ (80 : Byte)) = true := by decide

theorem witness_ReservedWordsAreRefusedAndUnreachable :
    (busyAt 6 0).ports.rst = false ∧ (busyAt 6 0).ph = 6 ∧ (State.boot asking []).Reachable :=
  ⟨rfl, rfl, asking, [], 0, rfl⟩

theorem witness_StepRunsTheDecodedOperation :
    okOf (decode (selectionWord (busyAt 1 0).ports.rst (busyAt 1 0).ph (busyAt 1 0).k)) = some .callNorm ∧
      (nextOf (exec .callNorm (busyAt 1 0))).isSome = true ∧
      (faultOf (exec (.emitStep 0) (busyAt 5 0))).isSome = true := by decide

theorem witness_StepRunsTheDecodedOperation_host :
    (State.boot asking []).host = [] ∧ (State.boot asking [Ports.low]).host = Ports.low :: [] := ⟨rfl, rfl⟩

theorem witness_OperationsStopExactlyAtForbiddenAccesses :
    faultOf (exec (.convStep 81) (busyAt 2 81)) = some (.indexOutOfRange .cbuf 162) ∧
      faultOf (exec (.ilvStep 0) { busyAt 3 0 with p := 162 }) = some (.indexOutOfRange .cbuf 162) ∧
      faultOf (exec (.ilvStep 0) (busyAt 3 0)) = some (.unwrittenElement .cbuf 0) ∧
      faultOf (exec (.ilvStep 255) (busyAt 3 255)) = some (.interleaverCount 0) ∧
      faultOf (exec (.mrgStep 162) (busyAt 4 162)) = some (.indexOutOfRange .syncRom 162) ∧
      faultOf (exec (.mrgStep 161) (busyAt 4 161)) = some (.unwrittenElement .dbuf 161) ∧
      faultOf (exec (.emitStep 162) (busyAt 5 162)) = some (.indexOutOfRange .ybuf 162) ∧
      faultOf (exec (.emitStep 161) (busyAt 5 161)) = some (.unwrittenElement .ybuf 161) := by decide

theorem witness_PhasesFollowTheLinearOrder :
    (nextOf (step (busyAt 1 0))).isSome = true ∧ (busyAt 1 0).ports.rst = false ∧
      (nextOf (step { busyAt 6 0 with ports := { asking with rst := true } })).isSome = true := by decide

theorem witness_OperationsWriteOnlyTheirRegisters :
    (nextOf (exec .reset (busyAt 1 0))).isSome = true ∧ (nextOf (exec .accept (busyAt 0 0))).isSome = true ∧
      (nextOf (exec .callNorm (busyAt 1 0))).isSome = true ∧ (nextOf (exec .gridChk (busyAt 1 1))).isSome = true ∧
      (nextOf (exec .pwrLookup (busyAt 1 2))).isSome = true ∧ (nextOf (exec .callPack (busyAt 1 3))).isSome = true ∧
      (nextOf (exec .gridPack (busyAt 1 4))).isSome = true ∧ (nextOf (exec .assemble (busyAt 1 5))).isSome = true ∧
      (nextOf (exec (.convStep 0) (busyAt 2 0))).isSome = true := by decide

theorem witness_OperationsStoreOnlyToTheirElements :
    (nextOf (exec (.convStep 80) (busyAt 2 80))).isSome = true ∧
      (nextOf (exec (.ilvStep 0) { busyAt 3 0 with mem := ⟨[(0, 1)], [], []⟩ })).isSome = true ∧
      (nextOf (exec (.ilvStep 3) (busyAt 3 3))).isSome = true ∧
      (nextOf (exec (.mrgStep 161) { busyAt 4 161 with mem := ⟨[], [(161, 1)], []⟩ })).isSome = true ∧
      (nextOf (exec (.emitStep 161) { busyAt 5 161 with mem := ⟨[], [], [(161, 1)]⟩ })).isSome = true := by decide

theorem witness_StepKeepsMemoryCanonical :
    (busyAt 2 0).mem.wf ∧ (nextOf (step (busyAt 2 0))).isSome = true := by decide

theorem witness_AcceptTakesThePayloadOnce :
    (State.boot asking []).ports.reqValid = true ∧ State.reset.ports.reqValid = false ∧
      (busyAt 1 0).ports.rst = false ∧ (busyAt 1 0).ph ≠ 0 ∧ (nextOf (step (busyAt 1 0))).isSome = true := by decide

theorem witness_WaitingChangesNothing :
    (State.reset.ports.rst = false ∧ State.reset.host = [] ∧ State.reset.ph = 0 ∧ State.reset.k = 0 ∧
      State.reset.ports.reqValid = false) ∧
    (∃ s : State, s.ports.rst = false ∧ s.host = [] ∧ s.ph = 5 ∧ s.k.toNat ≤ 161 ∧ s.ports.symReady = false) :=
  ⟨by decide, { busyAt 5 161 with ports := Ports.low }, by decide⟩

theorem witness_ResetFromAnyState :
    ({ busyAt 6 0 with ports := { asking with rst := true } } : State).ports.rst = true ∧ (busyAt 6 0).host = [] := by
  decide

/-- A phase entry: `ASSEMBLE` enters `CONV`, `CONV_STEP` 80 enters `ILV`, `CALL_NORM` that raises enters `IDLE`. -/
theorem witness_EnteringAPhaseClearsItsCounters :
    (busyAt 1 5).ports.rst = false ∧ (nextOf (step (busyAt 1 5))).map (·.ph) = some 2 ∧
      (nextOf (step (busyAt 2 80))).map (·.ph) = some 3 ∧
      (nextOf (step { busyAt 1 0 with latch := badPorts.req })).map (·.ph) = some 0 := by decide

theorem witness_TransactionsEndInOneOfTwoWays :
    (busyAt 5 161).ports.rst = false ∧ (busyAt 5 161).ph ≠ 0 ∧
      (nextOf (step { busyAt 5 161 with mem := ⟨[], [], [(161, 2)]⟩ })).map (·.ph) = some 0 ∧
      (nextOf (step { busyAt 1 0 with latch := badPorts.req })).map (·.ph) = some 0 := by decide

/-- The callsign `K1JT` has the prefix `K`, the digit `1`, the suffix `JT`. -/
theorem witness_CallNormFollowsTheGrammar :
    CallsignParse (busyAt 1 0).latch.call (busyAt 1 0).latch.callLen [0x4B] 0x31 [0x4A, 0x54] := by
  unfold CallsignParse IsPresented; decide

/-- The empty callsign has no reading. -/
theorem witness_CallNormFollowsTheGrammar_raise :
    ¬ ∃ head digit tail, CallsignParse badPorts.req.call badPorts.req.callLen head digit tail := by
  rintro ⟨head, digit, tail, ⟨-, h⟩, -⟩
  have := congrArg List.length h
  simp [badPorts, charList] at this

theorem witness_NormalisedFieldHasItsShape :
    (nextOf (exec .callNorm (busyAt 1 0))).map (·.ph) = some 1 := by decide

/-- `FN20` is a locator. -/
theorem witness_GridChkAcceptsLocators : LocatorParse (busyAt 1 1).latch.grid (busyAt 1 1).latch.gridLen :=
  ⟨0x46, 0x4E, 0x32, 0x30, [], by unfold IsPresented; decide, by decide, by decide, by decide, by decide, .inl rfl⟩

/-- The empty locator is none. -/
theorem witness_GridChkAcceptsLocators_raise : ¬ LocatorParse badPorts.req.grid badPorts.req.gridLen := by
  rintro ⟨a, b, c, d, rest, ⟨-, h⟩, -⟩
  have := congrArg List.length h
  simp [badPorts, charList] at this

theorem witness_PwrLookupAcceptsTheTwentyEightPowers :
    (0xE2 : Byte).toInt = -30 ∧ (0x3C : Byte).toInt = 60 ∧ (0x05 : Byte).toInt = 5 := by decide

theorem witness_CallPackIsTheMixedRadixNumber :
    v37 0x20 = some 36 ∧ v37 0x5A = some 35 ∧ v10 0x39 = some 9 ∧ v27 0x5A = some 25 ∧ v27 0x20 = some 26 := by decide

theorem witness_GridPackIsTheInvertedLocator_check :
    (nextOf (exec .gridChk (busyAt 1 1))).map (·.ph) = some 1 := by decide

theorem witness_GridPackIsTheInvertedLocator :
    vAR (up req.grid.c0) = some 5 ∧ vAR (up req.grid.c1) = some 13 ∧ v10 req.grid.c2 = some 2 ∧
      v10 req.grid.c3 = some 0 := by decide

theorem witness_PackedFieldsStayInRange : ∃ n, pack req = .ok n := ⟨_, req_packs⟩

theorem witness_SourceWordDecomposesUniquely : ∃ n n', pack req = .ok n ∧ pack req = .ok n' :=
  ⟨_, _, req_packs, req_packs⟩

theorem witness_FirstFailingCheckIsReported_reset :
    ({ busyAt 1 0 with ports := { asking with rst := true } } : State).ports.rst = true ∧
      (nextOf (exec .reset (busyAt 1 0))).isSome = true := by decide

theorem witness_FirstFailingCheckIsReported :
    (State.boot badPorts []).ph = 0 ∧ (State.boot badPorts []).k = 0 ∧ badPorts.rst = false ∧
      badPorts.reqValid = true ∧ callOk badPorts.req.call badPorts.req.callLen = false ∧
      gridOk badPorts.req.grid badPorts.req.gridLen = false ∧ callOk req.call req.callLen = true ∧
      gridOk req.grid req.gridLen = true ∧ pwrOk 5 = false := by decide

theorem witness_ConvStepShiftsAndWritesTwoParities : (80 : Byte).toNat ≤ 80 ∧ (0 : Byte).toNat ≤ 80 := by decide

theorem witness_ConvStageWritesTheTapSums : State.reset.r = 0 := rfl

/-- The 81 steps go through from a state with `R` = 0, and from one with a leftover. -/
theorem witness_ConvStageIsLinear :
    State.reset.r = 0 ∧ State.reset.n = State.reset.n ^^^ State.reset.n ∧
      ∃ t, runOps convOps State.reset = .next t := ⟨rfl, by decide, _, rfl⟩

theorem witness_LeftoverRegisterChangesNoCodeBit :
    ∃ t u, runOps convOps State.reset = .next t ∧
      runOps convOps { State.reset with r := 0x80000000 } = .next u := ⟨_, _, rfl, rfl⟩

theorem witness_IlvStepCopiesOrSkips :
    (rev8 0x85).toNat = 161 ∧ bufRead [(161, (1 : BitVec 1))] 161 = some 1 ∧ (rev8 0x45).toNat = 162 := by decide

theorem witness_InterleaverIsThePermutation :
    ∃ s : State, s.p = 0 ∧ ∀ j < 162, bufRead s.mem.cbuf j ≠ none :=
  ⟨{ State.reset with mem := ⟨fullBuf, [], []⟩ }, rfl, fullBuf_is_full⟩

theorem witness_MrgStepFormsTheSymbol :
    syncRom[(161 : Byte).toNat]? = some 0 ∧ bufRead [(161, (1 : BitVec 1))] (161 : Byte).toNat = some 1 := by decide

theorem witness_MergeStageKeepsSyncAndData : ∃ s : State, ∀ j < 162, bufRead s.mem.dbuf j ≠ none :=
  ⟨{ State.reset with mem := ⟨[], fullBuf, []⟩ }, fullBuf_is_full⟩

theorem witness_EmitStepHandsOverOneSymbol :
    (busyAt 5 161).ph = 5 ∧ (161 : Byte).toNat ≤ 161 ∧ asking.symReady = true ∧ Ports.low.symReady = false ∧ (160 : Byte).toNat < 161 ∧
      bufRead [(160, (3 : BitVec 2)), (161, 2)] (160 : Byte).toNat = some 3 ∧
      bufRead [(160, (3 : BitVec 2)), (161, 2)] 161 = some 2 := by decide

theorem witness_SymbolPortShowsWhatIsHandedOver :
    (busyAt 1 0).ph ≠ 5 ∧ (busyAt 5 161).ph = 5 ∧
      (nextOf (exec (.emitStep 161) { busyAt 5 161 with mem := ⟨[], [], [(161, 2)]⟩ })).isSome = true := by decide

theorem witness_Reachable : (State.boot asking []).Reachable := ⟨asking, [], 0, rfl⟩

theorem witness_StepKeepsTheInvariant :
    ∃ s t : State, s.Inv ∧ step s = .next t := ⟨_, _, idle_inv, rfl⟩

theorem witness_InvariantStatesAlwaysStep : ∃ s : State, s.Inv := ⟨_, idle_inv⟩

theorem witness_TransactionComputesEncode :
    ∃ s : State, s.Inv ∧ s.ph = 0 ∧ s.ports.rst = false ∧ s.ports.reqValid = true ∧ s.ports.symReady = true ∧
      s.host = [] := ⟨_, idle_inv, rfl, rfl, rfl, rfl, rfl⟩

/-- The two steps are a transaction. -/
theorem bad_transaction :
    (State.boot badPorts []).transactionTo 2
      { State.reset with latch := badPorts.req, done := true, err := 2, ports := badPorts } :=
  ⟨rfl, rfl, rfl, by decide, bad_request_finishes, rfl, fun j h1 h2 => by
    obtain rfl : j = 1 := by omega
    exact ⟨_, rfl, by decide, by decide⟩⟩

theorem witness_FinishedTransactionShowsEncode :
    ∃ (s t : State) (n : Nat), s.Reachable ∧ s.transactionTo n t :=
  ⟨_, _, _, ⟨badPorts, [], 0, rfl⟩, bad_transaction⟩

theorem witness_ResultDependsOnThePayloadAlone :
    ∃ (s s' t t' : State) (n n' : Nat), s.Reachable ∧ s'.Reachable ∧ s.transactionTo n t ∧ s'.transactionTo n' t' ∧
      SamePayload s.ports.req s'.ports.req :=
  ⟨_, _, _, _, _, _, ⟨badPorts, [], 0, rfl⟩, ⟨badPorts, [], 0, rfl⟩, bad_transaction, bad_transaction,
    rfl, rfl, rfl, rfl, rfl⟩

theorem witness_EveryStepBringsTheEndNearer :
    ∃ s t : State, s.Inv ∧ s.ports.rst = false ∧ s.ph ≠ 0 ∧ (s.ph = 5 → s.ports.symReady = true) ∧
      step s = .next t := ⟨_, _, packing_inv, rfl, by decide, fun _ => rfl, rfl⟩

theorem witness_BitsFileIsOneByteASymbol :
    ∃ t : State, t.Inv ∧ t.ph = 0 ∧ t.done = true ∧ t.err = 0 := ⟨_, finished_inv, rfl, rfl, rfl⟩

end Sys2Proof.Tests
end

section
/-! SUPPORT. What each operation leaves unchanged, operation by operation: the access table (spec/10_state.md R42). -/

namespace Sys2Proof.Machine

theorem exec_reset_frame {s t : State} (h : exec .reset s = .next t) : t.ports = s.ports ∧ t.host = s.host := by
  rw [exec_reset_next_iff.mp h]
  exact ⟨rfl, rfl⟩

theorem exec_accept_frame {s t : State} (h : exec .accept s = .next t) :
    t = { s with latch := t.latch, ph := t.ph, k := t.k, busy := t.busy, done := t.done, err := t.err, out := t.out } := by
  rcases exec_accept_next_iff.mp h with ⟨-, rfl⟩ | ⟨-, rfl⟩ <;> rfl

theorem exec_callNorm_frame {s t : State} (h : exec .callNorm s = .next t) :
    t = { s with f := t.f, ph := t.ph, k := t.k, busy := t.busy, done := t.done, err := t.err } := by
  rcases exec_callNorm_next_iff.mp h with ⟨-, rfl⟩ | ⟨-, rfl⟩ <;> rfl

theorem exec_gridChk_frame {s t : State} (h : exec .gridChk s = .next t) :
    t = { s with ph := t.ph, k := t.k, busy := t.busy, done := t.done, err := t.err } := by
  rcases exec_gridChk_next_iff.mp h with ⟨-, rfl⟩ | ⟨-, rfl⟩ <;> rfl

theorem exec_pwrLookup_frame {s t : State} (h : exec .pwrLookup s = .next t) :
    t = { s with pw := t.pw, ph := t.ph, k := t.k, busy := t.busy, done := t.done, err := t.err } := by
  rcases exec_pwrLookup_next_iff.mp h with ⟨-, rfl⟩ | ⟨-, rfl⟩ <;> rfl

theorem exec_callPack_frame {s t : State} (h : exec .callPack s = .next t) :
    t = { s with n1 := t.n1, ph := t.ph, k := t.k } := by
  rw [exec_callPack_next_iff.mp h]
  rfl

theorem exec_gridPack_frame {s t : State} (h : exec .gridPack s = .next t) :
    t = { s with m := t.m, ph := t.ph, k := t.k } := by
  rw [exec_gridPack_next_iff.mp h]
  rfl

theorem exec_assemble_frame {s t : State} (h : exec .assemble s = .next t) :
    t = { s with n := t.n, r := t.r, ph := t.ph, k := t.k } := by
  rw [exec_assemble_next_iff.mp h]
  rfl

/-- Entering a phase other than `CONV` leaves `R`. -/
theorem State.advance_r (s : State) (k last : Byte) {next : Phase} (h : next ≠ .conv) :
    (s.advance k last next).r = s.r := by
  unfold State.advance
  split
  · simp [h]
  · rfl

/-- Entering a phase other than `ILV` leaves `P`. -/
theorem State.advance_p (s : State) (k last : Byte) {next : Phase} (h : next ≠ .ilv) :
    (s.advance k last next).p = s.p := by
  unfold State.advance
  split
  · simp [h]
  · rfl

/-- Before the last value of `K` the phase stays. -/
theorem State.advance_ph_of_ne (s : State) (next : Phase) {k last : Byte} (h : k ≠ last) :
    (s.advance k last next).ph = s.ph := by
  rw [State.advance_of_ne _ _ h, State.setK_ph]

theorem exec_convStep_frame {k : Byte} {s t : State} (h : exec (.convStep k) s = .next t) :
    t = { s with r := t.r, p := t.p, ph := t.ph, k := t.k, mem := { s.mem with cbuf := t.mem.cbuf } } ∧
      (k ≠ 80 → t.p = s.p ∧ t.ph = s.ph) := by
  rw [exec_convStep_of_le (le_of_exec_convStep_next h)] at h
  cases h
  constructor
  · rw [State.advance_mem]
    exact State.advance_frame ..
  · intro hk
    rw [State.advance_of_ne _ _ hk]
    exact ⟨rfl, rfl⟩

/-- The end of an `ILV_STEP` writes the sequencer alone. -/
theorem ilvEnd_frame {k : Byte} {s t : State} (h : ilvEnd k s = .next t) :
    t = { s with ph := t.ph, k := t.k } ∧ (k ≠ 255 → t.ph = s.ph) := by
  obtain ⟨-, rfl⟩ := ilvEnd_next_iff.mp h
  refine ⟨?_, State.advance_ph_of_ne _ _⟩
  have frame := s.advance_frame k 255 .merge
  rwa [State.advance_r _ _ _ (by decide), State.advance_p _ _ _ (by decide)] at frame

theorem exec_ilvStep_frame {k : Byte} {s t : State} (h : exec (.ilvStep k) s = .next t) :
    t = { s with p := t.p, ph := t.ph, k := t.k, mem := { s.mem with dbuf := t.mem.dbuf } } ∧
      (k ≠ 255 → t.ph = s.ph) := by
  rcases exec_ilvStep_next_iff.mp h with ⟨c, -, -, -, h⟩ | ⟨-, h⟩
  · obtain ⟨ht, hph⟩ := ilvEnd_frame h
    exact ⟨by rw [ht], hph⟩
  · obtain ⟨ht, hph⟩ := ilvEnd_frame h
    exact ⟨by rw [ht], hph⟩

theorem exec_mrgStep_frame {k : Byte} {s t : State} (h : exec (.mrgStep k) s = .next t) :
    t = { s with ph := t.ph, k := t.k, mem := { s.mem with ybuf := t.mem.ybuf } } ∧
      (k ≠ 161 → t.ph = s.ph) := by
  obtain ⟨sync, d, -, -, -, rfl⟩ := exec_mrgStep_next_iff.mp h
  refine ⟨?_, State.advance_ph_of_ne _ _⟩
  rw [State.advance_mem]
  have frame := State.advance_frame
    { s with mem := { s.mem with ybuf := bufWrite s.mem.ybuf k.toNat (symbolOf sync d) } } k 161 .emit
  rwa [State.advance_r _ _ _ (by decide), State.advance_p _ _ _ (by decide)] at frame

theorem exec_emitStep_frame {k : Byte} {s t : State} (h : exec (.emitStep k) s = .next t) :
    t = { s with out := t.out, busy := t.busy, done := t.done, ph := t.ph, k := t.k } ∧
      (k ≠ 161 → t.busy = s.busy ∧ t.done = s.done ∧ t.ph = s.ph) := by
  rcases exec_emitStep_next_iff.mp h with ⟨-, rfl⟩ | ⟨v, -, -, -, rfl⟩
  · exact ⟨rfl, fun _ => ⟨rfl, rfl, rfl⟩⟩
  · split
    · next hk => exact ⟨rfl, fun hne => absurd hk hne⟩
    · exact ⟨rfl, fun _ => ⟨rfl, rfl, rfl⟩⟩

/-- Settles O9: the frame of each operation. -/
theorem operationsWriteOnlyTheirRegisters : Obligations.OperationsWriteOnlyTheirRegisters := fun _ _ =>
  ⟨exec_reset_frame, exec_accept_frame, exec_callNorm_frame, exec_gridChk_frame, exec_pwrLookup_frame,
    exec_callPack_frame, exec_gridPack_frame, exec_assemble_frame, fun _ =>
    ⟨exec_convStep_frame, exec_ilvStep_frame, exec_mrgStep_frame, exec_emitStep_frame⟩⟩

end Sys2Proof.Machine
end

section
/-! SUPPORT. The normalised callsign field `F` slot by slot, and its shape (spec/10_state.md R22; 40_field_packer.md R101). -/

namespace Sys2Proof.Machine

/-- The characters `lettersFrom` looks at are letters. -/
theorem lettersFrom_iff {x : Field6} {a len : Nat} :
    lettersFrom x a len = true ↔ ∀ i : Fin 6, a ≤ i.val → i.val < len → isUpper (folded x i) = true := by
  have hmem : ∀ i : Fin 6, i ∈ slots := by decide
  simp only [lettersFrom, List.all_eq_true, hmem, true_implies, Bool.or_eq_true, Bool.not_eq_true',
    ← Bool.not_eq_true, Bool.and_eq_true, decide_eq_true_eq, ← imp_iff_not_or, and_imp]

/-- `fit1` clause by clause (R101). -/
theorem fit1_iff {call : Field6} {len : Nat} :
    fit1 call len = true ↔
      isAlnum (folded call 0) = true ∧ isDigit (folded call 1) = true ∧ 3 ≤ len ∧ len ≤ 5 ∧
        ∀ i : Fin 6, 2 ≤ i.val → i.val < len → isUpper (folded call i) = true := by
  simp only [fit1, Bool.and_eq_true, decide_eq_true_eq, lettersFrom_iff, and_assoc]

/-- `fit2` clause by clause (R101). -/
theorem fit2_iff {call : Field6} {len : Nat} :
    fit2 call len = true ↔
      4 ≤ len ∧ isAlnum (folded call 0) = true ∧ isAlnum (folded call 1) = true ∧ isDigit (folded call 2) = true ∧
        ∀ i : Fin 6, 3 ≤ i.val → i.val < len → isUpper (folded call i) = true := by
  simp only [fit2, Bool.and_eq_true, decide_eq_true_eq, lettersFrom_iff, and_assoc]

/-- An accepted callsign has 3 to 6 characters and one of the two fits (R101). -/
theorem callOk_iff {call : Field6} {len : BitVec 3} :
    callOk call len = true ↔
      3 ≤ len.toNat ∧ len.toNat ≤ 6 ∧ (fit1 call len.toNat = true ∨ fit2 call len.toNat = true) := by
  simp only [callOk, Bool.and_eq_true, Bool.or_eq_true, decide_eq_true_eq, and_assoc]

/-- The slots of `F` when the digit is at index 1: one leading space (R101). -/
theorem normalise_of_fit1 {call : Field6} {len : BitVec 3} (h : fit1 call len.toNat = true) :
    normalise call len =
      ⟨space, folded call 0, folded call 1, folded call 2,
        if 4 ≤ len.toNat then folded call 3 else space, if 5 ≤ len.toNat then folded call 4 else space⟩ := by
  obtain ⟨-, -, hlo, hhi, -⟩ := fit1_iff.mp h
  have hcases : len.toNat = 3 ∨ len.toNat = 4 ∨ len.toNat = 5 := by omega
  have hs : leadingSpaces call len = 1 := by simp [leadingSpaces, h]
  rcases hcases with hl | hl | hl <;> simp [normalise, hs, fieldOf, hl]

/-- The slots of `F` when the digit is at index 2: no leading space (R101). -/
theorem normalise_of_fit2 {call : Field6} {len : BitVec 3} (h1 : fit1 call len.toNat = false)
    (h2 : fit2 call len.toNat = true) :
    normalise call len =
      ⟨folded call 0, folded call 1, folded call 2, folded call 3,
        if 5 ≤ len.toNat then folded call 4 else space, if 6 ≤ len.toNat then folded call 5 else space⟩ := by
  obtain ⟨hlo, -⟩ := fit2_iff.mp h2
  have hcases : len.toNat = 4 ∨ len.toNat = 5 ∨ len.toNat = 6 ∨ len.toNat = 7 := by omega
  have hs : leadingSpaces call len = 0 := by simp [leadingSpaces, h1]
  rcases hcases with hl | hl | hl | hl <;> simp [normalise, hs, fieldOf, hl]

/-- The shape of the normalised field, slot by slot (R22). -/
def NormalShape (f : Field6) : Prop :=
  (f.c0 = 0x20 ∨ isDigit f.c0 = true ∨ isUpper f.c0 = true) ∧
    (isDigit f.c1 = true ∨ isUpper f.c1 = true) ∧
    isDigit f.c2 = true ∧ isUpper f.c3 = true ∧
    (isUpper f.c4 = true ∨ f.c4 = 0x20) ∧ (isUpper f.c5 = true ∨ f.c5 = 0x20) ∧
    (isUpper f.c5 = true → isUpper f.c4 = true)

theorem isAlnum_iff {c : Byte} : isAlnum c = true ↔ isDigit c = true ∨ isUpper c = true := by
  simp only [isAlnum, Bool.or_eq_true]

/-- The last two slots hold the rest of the suffix, left-justified: a letter or a space each, no letter behind a space. -/
theorem suffix_shape {a b : Byte} {m len : Nat} (ha : m ≤ len → isUpper a = true)
    (hb : m + 1 ≤ len → isUpper b = true) :
    (isUpper (if m ≤ len then a else space) = true ∨ (if m ≤ len then a else space) = 0x20) ∧
      (isUpper (if m + 1 ≤ len then b else space) = true ∨ (if m + 1 ≤ len then b else space) = 0x20) ∧
      (isUpper (if m + 1 ≤ len then b else space) = true → isUpper (if m ≤ len then a else space) = true) := by
  by_cases h2 : m + 1 ≤ len
  · have h1 : m ≤ len := by omega
    simp [h1, h2, ha h1, hb h2]
  · by_cases h1 : m ≤ len
    · simp [h1, h2, ha h1, space]
    · simp [h1, h2, space]

/-- The field of an accepted callsign has the shape of R22. -/
theorem normalise_shape {call : Field6} {len : BitVec 3} (h : callOk call len = true) :
    NormalShape (normalise call len) := by
  obtain ⟨-, -, hfit⟩ := callOk_iff.mp h
  cases h1 : fit1 call len.toNat with
  | true =>
    obtain ⟨h0, hd, hlo, -, hletters⟩ := fit1_iff.mp h1
    rw [normalise_of_fit1 h1]
    exact ⟨.inl rfl, isAlnum_iff.mp h0, hd, hletters 2 (by decide) hlo,
      suffix_shape (fun hl => hletters 3 (by decide) hl) (fun hl => hletters 4 (by decide) hl)⟩
  | false =>
    have h2 : fit2 call len.toNat = true := by simpa [h1] using hfit
    obtain ⟨hlo, h0, h1', hd, hletters⟩ := fit2_iff.mp h2
    rw [normalise_of_fit2 h1 h2]
    exact ⟨.inr (isAlnum_iff.mp h0), isAlnum_iff.mp h1', hd, hletters 3 (by decide) hlo,
      suffix_shape (fun hl => hletters 4 (by decide) hl) (fun hl => hletters 5 (by decide) hl)⟩

/-- Settles O18: a `CALL_NORM` that stays in `PACK` did not raise, so it wrote the field of an accepted callsign. -/
theorem normalisedFieldHasItsShape : Obligations.NormalisedFieldHasItsShape := by
  intro s t h hph
  rcases exec_callNorm_next_iff.mp h with ⟨hok, rfl⟩ | ⟨-, rfl⟩
  · exact normalise_shape hok
  · rw [State.raise_ph] at hph
    exact absurd hph (by decide)

end Sys2Proof.Machine
end

section
/-! SUPPORT. What the symbol port shows, and what an `EMIT_STEP` hands over (spec/10_state.md R38; 44_output_stage.md R190). -/

namespace Sys2Proof.Machine

/-- `sym_valid` is up exactly in `EMIT`. -/
theorem symValid_iff {s : State} : s.symValid = true ↔ s.ph = 5 :=
  decide_eq_true_iff

/-- Outside `EMIT` the port shows nothing. -/
theorem symbolPort_of_ph_ne {s : State} (h : s.ph ≠ 5) : s.symbolPort = none := by
  rw [State.symbolPort, if_neg fun hv => h (symValid_iff.mp hv)]

/-- In `EMIT` the port shows the element of `K`. -/
theorem symbolPort_of_bufRead {s : State} {v : BitVec 2} (hph : s.ph = 5)
    (hv : bufRead s.mem.ybuf s.k.toNat = some v) :
    s.symbolPort = some ⟨v, symByteOf v, s.k, decide (s.k = 161)⟩ := by
  simp [State.symbolPort, symValid_iff.mpr hph, hv]

/-- The byte form keeps the value (R54). -/
theorem symByteOf_toNat (v : BitVec 2) : (symByteOf v).toNat = v.toNat :=
  BitVec.toNat_setWidth_of_le (by decide)

/-- An `EMIT_STEP` that is taken appends the element of its index to `OUT`. -/
theorem out_of_exec_emitStep {k : Byte} {s t : State} (hready : s.ports.symReady = true)
    (h : exec (.emitStep k) s = .next t) :
    ∃ v, bufRead s.mem.ybuf k.toNat = some v ∧ t.out = s.out ++ [(k, v)] := by
  rcases exec_emitStep_next_iff.mp h with ⟨hwait, -⟩ | ⟨v, -, -, hv, rfl⟩
  · rw [hready] at hwait
    exact absurd hwait (by decide)
  · exact ⟨v, hv, by split <;> rfl⟩

/-- Settles O39: the port and the step read the same element. -/
theorem symbolPortShowsWhatIsHandedOver : Obligations.SymbolPortShowsWhatIsHandedOver := by
  intro s
  constructor
  · intro hph
    exact ⟨Bool.eq_false_iff.mpr fun hv => hph (symValid_iff.mp hv), symbolPort_of_ph_ne hph⟩
  · intro t hph hready h
    obtain ⟨v, hv, hout⟩ := out_of_exec_emitStep hready h
    exact ⟨_, symValid_iff.mpr hph, symbolPort_of_bufRead hph hv, hout, symByteOf_toNat v, rfl, decide_eq_true_iff⟩

end Sys2Proof.Machine
end

section
/-! SUPPORT. The invariant `State.Inv`: it holds at reset, every operation and the host's move keep it, so every reachable state
has it. -/

namespace Sys2Proof.Machine

/-! ### The invariant: the sequencer word of each operation -/

theorem decodeSequencer_conv {k : Byte} (h : k.toNat ≤ 80) : decodeSequencer 2 k = .ok (.convStep k) := by
  simp [decodeSequencer, h]

theorem decodeSequencer_ilv (k : Byte) : decodeSequencer 3 k = .ok (.ilvStep k) := by
  simp [decodeSequencer]

theorem decodeSequencer_merge {k : Byte} (h : k.toNat ≤ 161) : decodeSequencer 4 k = .ok (.mrgStep k) := by
  simp [decodeSequencer, h]

theorem decodeSequencer_emit {k : Byte} (h : k.toNat ≤ 161) : decodeSequencer 5 k = .ok (.emitStep k) := by
  simp [decodeSequencer, h]

/-- Below the last value of `K` the next value is in range, with no wrap. -/
theorem toNat_succ_of_ne {k last : Byte} (hle : k.toNat ≤ last.toNat) (hne : k ≠ last) :
    (k + 1).toNat = k.toNat + 1 ∧ k.toNat + 1 ≤ last.toNat := by
  have hlt : k.toNat < last.toNat := by
    have := BitVec.toNat_ne.mp hne
    omega
  exact ⟨toNat_succ_of_lt hlt (by omega), hlt⟩

/-! ### The invariant: the host's move -/

theorem readyFor_hostMove {s : State} {i : Instr} (h : s.readyFor i) : s.hostMove.readyFor i := by
  rw [hostMove_eq]
  cases i <;> exact h

/-- The invariant speaks of no port and no coming move of the host. -/
theorem inv_hostMove {s : State} (h : s.Inv) : s.hostMove.Inv where
  memory := by rw [State.hostMove_mem]; exact h.memory
  index := by rw [State.hostMove_p]; exact h.index
  busy := by rw [State.hostMove_busy, State.hostMove_ph]; exact h.busy
  ready := by
    obtain ⟨i, hi, hready⟩ := h.ready
    exact ⟨i, by rw [State.hostMove_ph, State.hostMove_k]; exact hi, readyFor_hostMove hready⟩

/-! ### The invariant: reset, errors -/

/-- The invariant holds of a state with every register at its reset value. -/
theorem inv_boot (ports : Ports) (host : List Ports) : (State.boot ports host).Inv where
  memory := ⟨Buf.wf_nil, Buf.wf_nil, Buf.wf_nil⟩
  index := Nat.zero_le _
  busy := rfl
  ready := ⟨.accept, rfl, ⟨rfl, rfl⟩, .inl rfl⟩

/-- Settles O42. -/
theorem invariantHoldsAtReset : Obligations.InvariantHoldsAtReset := inv_boot

theorem exec_reset_inv {s t : State} (h : exec .reset s = .next t) : t.Inv := by
  rw [exec_reset_next_iff.mp h]
  exact inv_boot s.ports s.host

/-- The result of a finished success (R210). -/
theorem resultShown_of_ok {s : State} {n : BitVec 50} (hdone : s.done = true) (hpack : pack s.latch = .ok n)
    (herr : s.err = 0) (hout : s.out = frameOf n) : s.resultShown := by
  simp [State.resultShown, hdone, transact, hpack, herr, hout]

/-- The result of a request in error (R210). -/
theorem resultShown_of_error {s : State} {e : EncodeError} (hdone : s.done = true) (hpack : pack s.latch = .error e)
    (herr : s.err = errorCode e) (hout : s.out = []) : s.resultShown := by
  simp [State.resultShown, hdone, transact, hpack, herr, hout]

/-- Raising the error the request deserves (R210, R247) leads to an idle state of the invariant. -/
theorem inv_raise {s : State} {e : EncodeError} (h : s.Inv) (hfresh : s.fresh) (hr : s.leftoverRegister)
    (hpack : pack s.latch = .error e) : (s.raise e).Inv where
  memory := h.memory
  index := h.index
  busy := rfl
  ready := by
    obtain ⟨-, -, hout⟩ := hfresh
    exact ⟨.accept, rfl, resultShown_of_error rfl hpack rfl hout, hr⟩

/-- A step inside a transaction leaves `BUSY` up, and its clause of the invariant with it. -/
theorem inv_of_stays_busy {s t : State} (h : s.Inv) (hph : s.ph ≠ 0) (hbusy : t.busy = s.busy) (hph' : t.ph ≠ 0)
    (hmem : t.mem.wf) (hp : t.p.toNat ≤ 162) (hready : ∃ i, decodeSequencer t.ph t.k = .ok i ∧ t.readyFor i) :
    t.Inv where
  memory := hmem
  index := hp
  busy := by rw [hbusy, h.busy]; exact (decide_eq_true hph).trans (decide_eq_true hph').symm
  ready := hready

/-- A step from one operation of `PACK` to the next. -/
theorem inv_of_pack {s t : State} {i : Instr} (h : s.Inv) (hph : s.ph = 1) (hph' : t.ph = 1)
    (hbusy : t.busy = s.busy) (hmem : t.mem = s.mem) (hp : t.p = s.p)
    (hi : packStep t.k = .ok i) (hready : t.readyFor i) : t.Inv := by
  refine inv_of_stays_busy h (by simp [hph]) hbusy (by simp [hph']) (hmem ▸ h.memory) (hp ▸ h.index) ⟨i, ?_, hready⟩
  simp [decodeSequencer, hph', hi]

/-! ### The invariant: ACCEPT and PACK -/

theorem exec_accept_inv {s t : State} (h : s.Inv) (hready : s.readyFor .accept) (ht : exec .accept s = .next t) :
    t.Inv := by
  obtain ⟨-, hr⟩ := hready
  rcases exec_accept_next_iff.mp ht with ⟨-, rfl⟩ | ⟨-, rfl⟩
  · exact ⟨h.memory, h.index, rfl, .callNorm, rfl, ⟨rfl, rfl, rfl⟩, hr, by simp [State.packedTo]⟩
  · exact h

theorem exec_callNorm_inv {s t : State} (h : s.Inv) (hph : s.ph = 1) (hready : s.readyFor .callNorm)
    (ht : exec .callNorm s = .next t) : t.Inv := by
  obtain ⟨hfresh, hr, -⟩ := hready
  rcases exec_callNorm_next_iff.mp ht with ⟨hok, rfl⟩ | ⟨hbad, rfl⟩
  · exact inv_of_pack (i := .gridChk) h hph rfl rfl rfl rfl rfl ⟨hfresh, hr, by simp [State.packedTo, hok]⟩
  · exact inv_raise h hfresh hr (by simp [pack, hbad])

theorem exec_gridChk_inv {s t : State} (h : s.Inv) (hph : s.ph = 1) (hready : s.readyFor .gridChk)
    (ht : exec .gridChk s = .next t) : t.Inv := by
  obtain ⟨hfresh, hr, hcall, -⟩ := hready
  obtain ⟨hcallOk, hf⟩ := hcall (by decide)
  rcases exec_gridChk_next_iff.mp ht with ⟨hok, rfl⟩ | ⟨hbad, rfl⟩
  · exact inv_of_pack (i := .pwrLookup) h hph rfl rfl rfl rfl rfl ⟨hfresh, hr, by
      simp [State.packedTo, hok, hcallOk, hf]⟩
  · exact inv_raise h hfresh hr (by simp [pack, hcallOk, hbad])

theorem exec_pwrLookup_inv {s t : State} (h : s.Inv) (hph : s.ph = 1) (hready : s.readyFor .pwrLookup)
    (ht : exec .pwrLookup s = .next t) : t.Inv := by
  obtain ⟨hfresh, hr, hcall, hgrid, -⟩ := hready
  obtain ⟨hcallOk, hf⟩ := hcall (by decide)
  have hgridOk := hgrid (by decide)
  rcases exec_pwrLookup_next_iff.mp ht with ⟨hok, rfl⟩ | ⟨hbad, rfl⟩
  · exact inv_of_pack (i := .callPack) h hph rfl rfl rfl rfl rfl ⟨hfresh, hr, by
      simp [State.packedTo, hok, hcallOk, hf, hgridOk]⟩
  · exact inv_raise h hfresh hr (by simp [pack, hcallOk, hgridOk, hbad])

theorem exec_callPack_inv {s t : State} (h : s.Inv) (hph : s.ph = 1) (hready : s.readyFor .callPack)
    (ht : exec .callPack s = .next t) : t.Inv := by
  obtain ⟨hfresh, hr, hcall, hgrid, hpwr, -⟩ := hready
  rw [exec_callPack_next_iff.mp ht]
  exact inv_of_pack (i := .gridPack) h hph rfl rfl rfl rfl rfl ⟨hfresh, hr, fun _ => hcall (by decide),
    fun _ => hgrid (by decide), fun _ => hpwr (by decide), fun _ => rfl, fun h5 => absurd h5 (by decide)⟩

theorem exec_gridPack_inv {s t : State} (h : s.Inv) (hph : s.ph = 1) (hready : s.readyFor .gridPack)
    (ht : exec .gridPack s = .next t) : t.Inv := by
  obtain ⟨hfresh, hr, hcall, hgrid, hpwr, hn1, -⟩ := hready
  rw [exec_gridPack_next_iff.mp ht]
  exact inv_of_pack (i := .assemble) h hph rfl rfl rfl rfl rfl ⟨hfresh, hr, fun _ => hcall (by decide),
    fun _ => hgrid (by decide), fun _ => hpwr (by decide), fun _ => hn1 (by decide), fun _ => rfl⟩

/-- The three fields side by side are the sum of R77. -/
theorem sourceWord_eq (n1 : BitVec 28) (m : BitVec 15) (pw : BitVec 7) :
    sourceWord n1 m pw = BitVec.ofNat 50 (n1.toNat * 2 ^ 22 + m.toNat * 2 ^ 7 + pw.toNat) := by
  have h1 := n1.isLt
  have h2 := m.isLt
  have h3 := pw.isLt
  have hlow : m.toNat * 128 + pw.toNat < 2 ^ 22 := by omega
  have hhigh : n1.toNat <<< 22 < 2 ^ 50 := by rw [Nat.shiftLeft_eq]; omega
  have hor := Nat.shiftLeft_add_eq_or_of_lt hlow n1.toNat
  apply BitVec.eq_of_toNat_eq
  rw [sourceWord, n2Of, BitVec.toNat_or, BitVec.toNat_shiftLeft, BitVec.toNat_setWidth, BitVec.toNat_setWidth,
    BitVec.toNat_ofNat, BitVec.toNat_ofNat, Nat.mod_eq_of_lt hlow, Nat.mod_eq_of_lt (by omega : n1.toNat < 2 ^ 50),
    Nat.mod_eq_of_lt hhigh, Nat.mod_eq_of_lt (by omega : m.toNat * 128 + pw.toNat < 2 ^ 50), ← hor, Nat.shiftLeft_eq,
    Nat.mod_eq_of_lt (by omega)]
  omega

/-- The source word of a request that passes the three tests (R100). -/
theorem pack_of_ok {q : Req} (hcall : callOk q.call q.callLen = true) (hgrid : gridOk q.grid q.gridLen = true)
    (hpwr : pwrOk q.dbm = true) : pack q = .ok (packedWord q) := by
  simp [pack, hcall, hgrid, hpwr]

theorem exec_assemble_inv {s t : State} (h : s.Inv) (hph : s.ph = 1) (hready : s.readyFor .assemble)
    (ht : exec .assemble s = .next t) : t.Inv := by
  obtain ⟨hfresh, -, hcall, hgrid, hpwr, hn1, hm⟩ := hready
  obtain ⟨hcallOk, hf⟩ := hcall (by decide)
  obtain ⟨hpwrOk, hpw⟩ := hpwr (by decide)
  have hword : sourceWord s.n1 s.m s.pw = packedWord s.latch := by
    rw [sourceWord_eq, hn1 (by decide), hm (by decide), hpw, hf, packedWord]
  have hpack := pack_of_ok hcallOk (hgrid (by decide)) hpwrOk
  rw [← hword] at hpack
  rw [exec_assemble_next_iff.mp ht]
  exact inv_of_stays_busy h (by simp [hph]) rfl (by simp) h.memory h.index ⟨.convStep 0, rfl, hfresh, hpack,
    rfl, fun i hi => absurd hi (Nat.not_lt_zero i)⟩

/-! ### The invariant: CONV -/

/-- The next element of the stream, written to its place. -/
theorem holdsUpTo_succ {w : Nat} {b : Buf w} {j : Nat} {stream : Nat → BitVec w} (h : holdsUpTo b j stream) :
    holdsUpTo (bufWrite b j (stream j)) (j + 1) stream := by
  intro i hi
  rw [bufRead_bufWrite]
  split
  · next hij => rw [hij]
  · exact h i (by omega)

/-- The end of a step of a loop phase: the next `K` of the phase, or the first of the next phase. -/
theorem inv_advance {s s' : State} {k last : Byte} {next : Phase} (h : s.Inv) (hph : s.ph ≠ 0)
    (hph' : s'.ph = s.ph) (hbusy : s'.busy = s.busy) (hmem : s'.mem.wf) (hp : s'.p.toNat ≤ 162)
    (hcode : next.code ≠ 0)
    (hgo : k ≠ last → ∃ i, decodeSequencer s'.ph (k + 1) = .ok i ∧ (s'.setK (k + 1)).readyFor i)
    (hend : k = last → ∃ i, decodeSequencer next.code 0 = .ok i ∧ (s'.enter next).readyFor i) :
    (s'.advance k last next).Inv := by
  unfold State.advance
  split
  · next hk =>
    refine inv_of_stays_busy h hph hbusy hcode hmem ?_ (hend hk)
    rw [State.enter_p]
    split
    · exact Nat.zero_le _
    · exact hp
  · next hk => exact inv_of_stays_busy h hph hbusy (hph' ▸ hph) hmem hp (hgo hk)

/-- After the last step of `CONV` the register holds at most the last message bit, in bit 31 (R148). -/
theorem window_80 (n : BitVec 50) : window n 80 = 0 ∨ window n 80 = 0x80000000 := by
  have hlow : ∀ t < 31, (window n 80).getLsbD t = false := by
    intro t ht
    rw [getLsbD_window, inputBit, if_neg (by omega)]
    simp
  have hbits : ∀ c : BitVec 32, (∀ t < 31, c.getLsbD t = false) → c.getLsbD 31 = (window n 80).getLsbD 31 →
      window n 80 = c := by
    intro c hc h31
    apply BitVec.eq_of_getLsbD_eq
    intro t ht
    by_cases h : t = 31
    · rw [h, h31]
    · rw [hlow t (by omega), hc t (by omega)]
  cases h : (window n 80).getLsbD 31 with
  | false => exact .inl (hbits 0 (by simp) (by rw [h]; decide))
  | true => exact .inr (hbits 0x80000000 (by decide) (by rw [h]; decide))

/-- The two writes of a `CONV_STEP` are the next two bits of the coded stream (R145). -/
theorem holdsUpTo_conv {b : Buf 1} {n : BitVec 50} {k : Byte} (h : holdsUpTo b (2 * k.toNat) (codeBit n)) :
    holdsUpTo
      (bufWrite (bufWrite b (convIndex0 k) (BitVec.ofBool (parity (window n k.toNat &&& G0)))) (convIndex1 k)
        (BitVec.ofBool (parity (window n k.toNat &&& G1))))
      (2 * (k.toNat + 1)) (codeBit n) := by
  rw [← codeBit_even, ← codeBit_odd]
  exact holdsUpTo_succ (holdsUpTo_succ h)

theorem exec_convStep_inv {k : Byte} {s t : State} (h : s.Inv) (hph : s.ph = 2) (hk : k.toNat ≤ 80)
    (hready : s.readyFor (.convStep k)) (ht : exec (.convStep k) s = .next t) : t.Inv := by
  obtain ⟨hfresh, hpack, hr, hcode⟩ := hready
  obtain ⟨hcbuf, hdbuf, hybuf⟩ := h.memory
  have hcbuf' := holdsUpTo_conv hcode
  rw [exec_convStep_of_le hk, shiftIn_window s.n hr] at ht
  cases ht
  refine inv_advance h (by simp [hph]) rfl rfl
    ⟨bufWrite_wf _ (by unfold convIndex1; omega) (bufWrite_wf _ (by unfold convIndex0; omega) hcbuf), hdbuf, hybuf⟩
    h.index (by decide) ?_ ?_
  · intro hne
    obtain ⟨hsucc, hle⟩ := toNat_succ_of_ne (last := 80) hk hne
    refine ⟨.convStep (k + 1), ?_, hfresh, hpack, ?_, ?_⟩
    · rw [hph]
      exact decodeSequencer_conv (by rw [hsucc]; exact hle)
    · rw [hsucc, if_neg (Nat.succ_ne_zero _)]
      rfl
    · rw [hsucc]
      exact hcbuf'
  · rintro rfl
    refine ⟨.ilvStep 0, decodeSequencer_ilv 0, hfresh, hpack, window_80 s.n, hcbuf', rfl, ?_⟩
    intro i hi
    exact absurd hi (Nat.not_lt_zero i)

/-! ### The invariant: ILV -/

/-- The bits copied by the `ILV_STEP`s before `K` = `k` stand at their places in `DBUF`. -/
def interleavedTo (d : Buf 1) (n : BitVec 50) (k : Nat) : Prop :=
  ∀ i < k, ilvIndex (BitVec.ofNat 8 i) < 162 →
    bufRead d (ilvIndex (BitVec.ofNat 8 i)) = some (dataBit n (ilvIndex (BitVec.ofNat 8 i)))

/-- A skipped index adds nothing. -/
theorem interleavedTo_skip {d : Buf 1} {n : BitVec 50} {k : Byte} (h : interleavedTo d n k.toNat)
    (hk : 162 ≤ ilvIndex k) : interleavedTo d n (k.toNat + 1) := by
  intro i hi hlt
  refine h i (Nat.lt_of_le_of_ne (by omega) ?_) hlt
  rintro rfl
  rw [BitVec.ofNat_toNat, BitVec.setWidth_eq] at hlt
  omega

/-- A copy adds the data bit of its index. -/
theorem interleavedTo_copy {d : Buf 1} {n : BitVec 50} {k : Byte} (h : interleavedTo d n k.toNat) :
    interleavedTo (bufWrite d (ilvIndex k) (dataBit n (ilvIndex k))) n (k.toNat + 1) := by
  intro i hi hlt
  rw [bufRead_bufWrite]
  split
  · next heq => rw [heq]
  · next hne =>
    refine h i (Nat.lt_of_le_of_ne (by omega) ?_) hlt
    rintro rfl
    exact hne (by simp)

theorem rev8_rev8 : ∀ v : Byte, rev8 (rev8 v) = v := by decide

/-- After 256 steps every element is written: index `j` is reached at `K` = `rev8(j)` (R162). -/
theorem holdsUpTo_of_interleavedTo {d : Buf 1} {n : BitVec 50} (h : interleavedTo d n 256) :
    holdsUpTo d 162 (dataBit n) := by
  intro j hj
  have hindex : ilvIndex (BitVec.ofNat 8 (rev8 (BitVec.ofNat 8 j)).toNat) = j := by
    rw [BitVec.ofNat_toNat, BitVec.setWidth_eq, ilvIndex, rev8_rev8, BitVec.toNat_ofNat]
    omega
  have := h _ (rev8 (BitVec.ofNat 8 j)).isLt (by rw [hindex]; exact hj)
  rwa [hindex] at this

/-- The copy at `K` = `k` is of the data bit of its destination (R163). -/
theorem codeBit_eq_dataBit {n : BitVec 50} {k : Byte} {p : Nat} (hp : p = copiesBefore k.toNat)
    (hk : ilvIndex k < 162) : codeBit n p = dataBit n (ilvIndex k) := by
  have hofNat : BitVec.ofNat 8 k.toNat = k := by simp
  have hinv := permInverse_ilvIndex k.isLt (by rwa [hofNat])
  rw [hofNat] at hinv
  rw [dataBit, hinv, hp]

/-- What the invariant asks at the `ILV_STEP` of `K` = `j`: the copies of the steps before it are made. -/
def State.copiedTo (s : State) (j : Nat) : Prop :=
  s.fresh ∧ pack s.latch = .ok s.n ∧ s.leftoverRegister ∧ holdsUpTo s.mem.cbuf 162 (codeBit s.n) ∧
    s.p.toNat = copiesBefore j ∧ interleavedTo s.mem.dbuf s.n j

theorem readyFor_ilvStep_iff {s : State} {k : Byte} : s.readyFor (.ilvStep k) ↔ s.copiedTo k.toNat := Iff.rfl

/-- The end of an `ILV_STEP`, after its copy or skip. -/
theorem ilvEnd_inv {k : Byte} {s s' t : State} (h : s.Inv) (ht : ilvEnd k s' = .next t) (hph : s.ph = 3)
    (hph' : s'.ph = s.ph) (hbusy : s'.busy = s.busy) (hmem : s'.mem.wf) (hp : s'.p.toNat ≤ 162)
    (hcopied : s'.copiedTo (k.toNat + 1)) : t.Inv := by
  obtain ⟨hlast, rfl⟩ := ilvEnd_next_iff.mp ht
  refine inv_advance h (by simp [hph]) hph' hbusy hmem hp (by decide) ?_ ?_
  · intro hne
    obtain ⟨hsucc, -⟩ := toNat_succ_of_ne (last := 255) (Nat.le_of_lt_succ k.isLt) hne
    rw [hph', hph]
    refine ⟨.ilvStep (k + 1), decodeSequencer_ilv _, readyFor_ilvStep_iff.mpr ?_⟩
    rw [hsucc]
    exact hcopied
  · rintro rfl
    obtain ⟨hfresh, hpack, hr, -, -, hd⟩ := hcopied
    exact ⟨.mrgStep 0, decodeSequencer_merge (by decide), hfresh, hpack, hr, hlast rfl,
      holdsUpTo_of_interleavedTo hd, fun i hi => absurd hi (Nat.not_lt_zero i)⟩

theorem exec_ilvStep_inv {k : Byte} {s t : State} (h : s.Inv) (hph : s.ph = 3)
    (hready : s.readyFor (.ilvStep k)) (ht : exec (.ilvStep k) s = .next t) : t.Inv := by
  obtain ⟨hfresh, hpack, hr, hcode, hp, hd⟩ := readyFor_ilvStep_iff.mp hready
  obtain ⟨hcbuf, hdbuf, hybuf⟩ := h.memory
  have hcopies := copiesBefore_succ k.toNat
  rw [BitVec.ofNat_toNat, BitVec.setWidth_eq, ← hp] at hcopies
  rcases exec_ilvStep_next_iff.mp ht with ⟨c, hk, hlt, hc, ht⟩ | ⟨hk, ht⟩
  · have hbit : c = dataBit s.n (ilvIndex k) := by
      rw [← codeBit_eq_dataBit hp hk]
      exact Option.some.inj (hc.symm.trans (hcode _ hlt))
    have hsucc : (s.p + 1).toNat = s.p.toNat + 1 := toNat_succ_of_lt hlt (by decide)
    rw [if_pos hk, ← hsucc] at hcopies
    rw [hbit] at ht
    exact ilvEnd_inv h ht hph rfl rfl ⟨hcbuf, bufWrite_wf _ hk hdbuf, hybuf⟩ (hsucc ▸ hlt)
      ⟨hfresh, hpack, hr, hcode, hcopies.symm, interleavedTo_copy hd⟩
  · rw [if_neg (by omega), Nat.add_zero] at hcopies
    exact ilvEnd_inv h ht hph rfl rfl h.memory h.index
      ⟨hfresh, hpack, hr, hcode, hcopies.symm, interleavedTo_skip hd hk⟩

/-! ### The invariant: MERGE and EMIT -/

theorem exec_mrgStep_inv {k : Byte} {s t : State} (h : s.Inv) (hph : s.ph = 4)
    (hready : s.readyFor (.mrgStep k)) (ht : exec (.mrgStep k) s = .next t) : t.Inv := by
  obtain ⟨hfresh, hpack, hr, hp, hdata, hsym⟩ := hready
  obtain ⟨hcbuf, hdbuf, hybuf⟩ := h.memory
  obtain ⟨sync, d, hk, hsync, hd, rfl⟩ := exec_mrgStep_next_iff.mp ht
  have hd' : d = dataBit s.n k.toNat := Option.some.inj (hd.symm.trans (hdata _ hk))
  have hsymbol : symbolOf sync d = symbolAt s.n k.toNat := by
    rw [symbolAt, List.getD_eq_getElem?_getD, hsync, Option.getD_some, hd']
  have hnext := holdsUpTo_succ hsym
  rw [hsymbol]
  refine inv_advance h (by simp [hph]) rfl rfl ⟨hcbuf, hdbuf, bufWrite_wf _ hk hybuf⟩ h.index (by decide) ?_ ?_
  · intro hne
    obtain ⟨hsucc, hle⟩ := toNat_succ_of_ne (last := 161) (Nat.le_of_lt_succ hk) hne
    refine ⟨.mrgStep (k + 1), ?_, hfresh, hpack, hr, hp, hdata, ?_⟩
    · rw [hph]
      exact decodeSequencer_merge (by rw [hsucc]; exact hle)
    · rw [hsucc]
      exact hnext
  · rintro rfl
    obtain ⟨hdone, herr, hout⟩ := hfresh
    exact ⟨.emitStep 0, decodeSequencer_emit (by decide), hdone, herr, hpack, hr, hp, hnext, hout⟩

theorem exec_emitStep_inv {k : Byte} {s t : State} (h : s.Inv) (hph : s.ph = 5)
    (hready : s.readyFor (.emitStep k)) (ht : exec (.emitStep k) s = .next t) : t.Inv := by
  obtain ⟨hdone, herr, hpack, hr, hp, hsym, hout⟩ := hready
  rcases exec_emitStep_next_iff.mp ht with ⟨-, rfl⟩ | ⟨v, -, hk, hv, rfl⟩
  · exact h
  · have hv' : v = symbolAt s.n k.toNat := Option.some.inj (hv.symm.trans (hsym _ hk))
    have hout' : s.out ++ [(k, v)] = (frameOf s.n).take (k.toNat + 1) := by
      rw [frameOf_take_succ s.n hk, hout, hv']
    split
    · next hlast =>
      subst hlast
      have hframe : s.out ++ [(161, v)] = frameOf s.n :=
        hout'.trans (List.take_of_length_le (by rw [frameOf_length]; decide))
      exact ⟨h.memory, h.index, rfl, .accept, rfl, resultShown_of_ok rfl hpack herr hframe, hr⟩
    · next hne =>
      obtain ⟨hsucc, hle⟩ := toNat_succ_of_ne (last := 161) (Nat.le_of_lt_succ hk) hne
      refine inv_of_stays_busy h (by simp [hph]) rfl (by simp [hph]) h.memory h.index
        ⟨.emitStep (k + 1), ?_, hdone, herr, hpack, hr, hp, hsym, ?_⟩
      · rw [State.setK_ph, State.emit_ph, hph]
        exact decodeSequencer_emit (by rw [State.setK_k, hsucc]; exact hle)
      · rw [hsucc]
        exact hout'

/-! ### The invariant along every run -/

/-- Every operation the sequencer selects keeps the invariant. -/
theorem exec_keeps_inv {i : Instr} {s t : State} (h : s.Inv) (hi : decodeSequencer s.ph s.k = .ok i)
    (ht : exec i s = .next t) : t.Inv := by
  obtain ⟨j, hj, hready⟩ := h.ready
  obtain rfl : j = i := Except.ok.inj (hj.symm.trans hi)
  have hcases := decodeSequencer_cases hi
  cases j with
  | reset => exact hcases.elim
  | accept => exact exec_accept_inv h hready ht
  | callNorm => exact exec_callNorm_inv h hcases.1 hready ht
  | gridChk => exact exec_gridChk_inv h hcases.1 hready ht
  | pwrLookup => exact exec_pwrLookup_inv h hcases.1 hready ht
  | callPack => exact exec_callPack_inv h hcases.1 hready ht
  | gridPack => exact exec_gridPack_inv h hcases.1 hready ht
  | assemble => exact exec_assemble_inv h hcases.1 hready ht
  | convStep k =>
    obtain ⟨hph, rfl, hk⟩ := hcases
    exact exec_convStep_inv h hph hk hready ht
  | ilvStep k => exact exec_ilvStep_inv h hcases.1 hready ht
  | mrgStep k => exact exec_mrgStep_inv h hcases.1 hready ht
  | emitStep k => exact exec_emitStep_inv h hcases.1 hready ht

/-- One step keeps the invariant, whatever the host does with `rst` and the ports. -/
theorem step_keeps_inv {s t : State} (h : s.Inv) (ht : step s = .next t) : t.Inv := by
  obtain ⟨i, u, hi, hu, rfl⟩ := step_next_iff.mp ht
  split at hi
  · subst hi
    exact inv_hostMove (exec_reset_inv hu)
  · exact inv_hostMove (exec_keeps_inv h hi hu)

/-- Every state a run from reset reaches has the invariant. -/
theorem reachable_inv {t : State} (h : t.Reachable) : t.Inv :=
  reachable_induction inv_boot (fun _ _ => step_keeps_inv) h

end Sys2Proof.Machine
end

section
/-! SUPPORT. What the invariant says of `OUT` and `STATUS` (spec/10_state.md R31 to R33). -/

namespace Sys2Proof.Machine

/-- In a state of the invariant CORE is idle and shows a result, or is busy with no result and no error. -/
theorem idle_or_busy_of_inv {s : State} (h : s.Inv) :
    (s.ph = 0 ∧ s.resultShown) ∨ (s.ph ≠ 0 ∧ s.done = false ∧ s.err = 0) := by
  obtain ⟨i, hi, hready⟩ := h.ready
  have hcases := decodeSequencer_cases hi
  cases i with
  | reset => exact hcases.elim
  | accept =>
    obtain ⟨hshown, -⟩ := hready
    exact .inl ⟨hcases.1, hshown⟩
  | emitStep k =>
    obtain ⟨hdone, herr, -⟩ := hready
    exact .inr ⟨by simp [hcases.1], hdone, herr⟩
  | _ =>
    obtain ⟨⟨hdone, herr, -⟩, -⟩ := hready
    exact .inr ⟨by simp [hcases.1], hdone, herr⟩

/-- What a shown result can be: nothing yet, an error's code and no symbol, or a frame (R79, R210). -/
theorem resultShown_cases {s : State} (h : s.resultShown) :
    (s.err = 0 ∧ s.out = []) ∨ (s.done = true ∧ (∃ e, s.err = errorCode e) ∧ s.out = []) ∨
      (s.err = 0 ∧ ∃ n, s.out = frameOf n) := by
  unfold State.resultShown transact at h
  split at h
  · next hdone =>
    cases hp : pack s.latch with
    | error e =>
      rw [hp] at h
      obtain ⟨herr, hout⟩ := h
      exact .inr (.inl ⟨hdone, ⟨e, herr⟩, hout⟩)
    | ok n =>
      rw [hp] at h
      obtain ⟨herr, hout⟩ := h
      exact .inr (.inr ⟨herr, n, hout⟩)
  · exact .inl h

/-- `ERR` of a shown result is a code of R79, and is 0 while `DONE` is. -/
theorem err_of_resultShown {s : State} (h : s.resultShown) :
    (s.done = false → s.err = 0) ∧ (s.err = 0 ∨ s.err = 2 ∨ s.err = 3 ∨ s.err = 4) := by
  rcases resultShown_cases h with ⟨herr, -⟩ | ⟨hdone, ⟨e, herr⟩, -⟩ | ⟨herr, -⟩
  · exact ⟨fun _ => herr, .inl herr⟩
  · refine ⟨fun hd => absurd (hdone.symm.trans hd) (by decide), ?_⟩
    rw [herr]
    cases e <;> decide
  · exact ⟨fun _ => herr, .inl herr⟩

/-- What has been handed out is always the beginning of a frame. -/
theorem out_prefix_of_inv {s : State} (h : s.Inv) : ∃ n, s.out <+: frameOf n := by
  obtain ⟨i, hi, hready⟩ := h.ready
  have hcases := decodeSequencer_cases hi
  cases i with
  | reset => exact hcases.elim
  | accept =>
    obtain ⟨hshown, -⟩ := hready
    rcases resultShown_cases hshown with ⟨-, hout⟩ | ⟨-, -, hout⟩ | ⟨-, n, hout⟩
    · exact ⟨0, hout ▸ List.nil_prefix⟩
    · exact ⟨0, hout ▸ List.nil_prefix⟩
    · exact ⟨n, hout ▸ List.prefix_rfl⟩
  | emitStep k =>
    obtain ⟨-, -, -, -, -, -, hout⟩ := hready
    exact ⟨s.n, hout ▸ List.take_prefix _ _⟩
  | _ =>
    obtain ⟨⟨-, -, hout⟩, -⟩ := hready
    exact ⟨0, hout ▸ List.nil_prefix⟩

/-- Pair `i` of a frame is the symbol of index `i` (R33). -/
theorem frameOf_getElem? {n : BitVec 50} {i : Nat} {e : Byte × BitVec 2} (h : (frameOf n)[i]? = some e) :
    i < 162 ∧ e = (BitVec.ofNat 8 i, symbolAt n i) := by
  have hi : i < 162 := by
    obtain ⟨hlt, -⟩ := List.getElem?_eq_some_iff.mp h
    rwa [frameOf_length] at hlt
  refine ⟨hi, ?_⟩
  simp only [frameOf, List.getElem?_map, List.getElem?_range hi] at h
  exact (Option.some.inj h).symm

/-- The low bit of a symbol is the sync bit (R176). -/
theorem symbolOf_low : ∀ s d : BitVec 1, (symbolOf s d).extractLsb' 0 1 = s := by decide

/-- The low bit of symbol `i` is the sync bit of `i`, whatever the message (R177). -/
theorem symbolAt_low (n : BitVec 50) {i : Nat} (hi : i < 162) :
    syncRom[i]? = some ((symbolAt n i).extractLsb' 0 1) := by
  have hlen : i < syncRom.length := by rwa [syncRom_length]
  rw [symbolAt, symbolOf_low, List.getD_eq_getElem _ _ hlen, List.getElem?_eq_getElem hlen]

/-- Settles O40: what has been handed out is the beginning of a frame. -/
theorem symbolsLeaveInOrder : Obligations.SymbolsLeaveInOrder := by
  intro t ht
  obtain ⟨n, hprefix⟩ := out_prefix_of_inv (reachable_inv ht)
  refine ⟨frameOf_length n ▸ hprefix.length_le, ?_⟩
  intro i e he
  obtain ⟨hlt, rfl⟩ := List.getElem?_eq_some_iff.mp he
  obtain ⟨hi, hentry⟩ := frameOf_getElem? (List.prefix_iff_getElem?.mp hprefix i hlt)
  rw [hentry]
  refine ⟨?_, symbolAt_low n hi⟩
  rw [BitVec.toNat_ofNat]
  omega

/-- The three fields of `STATUS` (R32). -/
theorem status_fields (s : State) :
    s.status.getLsbD 0 = s.busy ∧ s.status.getLsbD 1 = s.done ∧ s.status.extractLsb' 2 3 = s.err := by
  simp only [State.status]
  generalize s.busy = b, s.done = d, s.err = e
  revert b d e
  decide

/-- Settles O41: `BUSY` is a clause of the invariant, the rest is its two cases, idle with a result and busy with none. -/
theorem statusTellsTheTransaction : Obligations.StatusTellsTheTransaction := by
  intro t ht
  have hinv := reachable_inv ht
  have hbusy : t.busy = true ↔ t.ph ≠ 0 := by
    rw [hinv.busy]
    exact decide_eq_true_iff
  rcases idle_or_busy_of_inv hinv with ⟨hph, hshown⟩ | ⟨-, hdone, herr⟩
  · obtain ⟨herr, hcodes⟩ := err_of_resultShown hshown
    exact ⟨hbusy, fun hb => absurd hph (hbusy.mp hb), herr, hcodes, status_fields t⟩
  · exact ⟨hbusy, fun _ => hdone, fun _ => herr, .inl herr, status_fields t⟩

end Sys2Proof.Machine
end

section
/-! SUPPORT. The memory family: the invariant along one step, which elements an operation stores to, the canonical form
of the buffers, and where an operation faults (spec/20_memory.md R50 to R52, R60, R65). -/

namespace Sys2Proof.Machine

/-- Settles O43: the step lemma of the invariant: `RESET` or the selected operation, then the host's move. -/
theorem stepKeepsTheInvariant : Obligations.StepKeepsTheInvariant := fun _ _ => step_keeps_inv

/-! ### What each operation stores -/

/-- `ACCEPT` and the six operations of `PACK` store to no buffer. -/
theorem exec_keeps_mem {s t : State} :
    ∀ i ∈ [Instr.accept, .callNorm, .gridChk, .pwrLookup, .callPack, .gridPack, .assemble],
      exec i s = .next t → t.mem = s.mem := by
  simp only [List.forall_mem_cons]
  exact ⟨fun h => (congrArg State.mem (exec_accept_frame h) :), fun h => (congrArg State.mem (exec_callNorm_frame h) :),
    fun h => (congrArg State.mem (exec_gridChk_frame h) :), fun h => (congrArg State.mem (exec_pwrLookup_frame h) :),
    fun h => (congrArg State.mem (exec_callPack_frame h) :), fun h => (congrArg State.mem (exec_gridPack_frame h) :),
    fun h => (congrArg State.mem (exec_assemble_frame h) :), fun _ hi => nomatch hi⟩

theorem exec_reset_mem {s t : State} (h : exec .reset s = .next t) : t.mem = ⟨[], [], []⟩ := by
  rw [exec_reset_next_iff.mp h]
  rfl

/-- `CONV_STEP` makes two writes to `CBUF`. -/
theorem exec_convStep_mem {k : Byte} {s t : State} (h : exec (.convStep k) s = .next t) :
    ∃ a b, t.mem = { s.mem with cbuf := bufWrite (bufWrite s.mem.cbuf (convIndex0 k) a) (convIndex1 k) b } := by
  rw [exec_convStep_of_le (le_of_exec_convStep_next h)] at h
  cases h
  exact ⟨_, _, State.advance_mem ..⟩

/-- `ILV_STEP` makes one write to `DBUF` when it copies, and none when it skips. -/
theorem exec_ilvStep_mem {k : Byte} {s t : State} (h : exec (.ilvStep k) s = .next t) :
    (ilvIndex k < 162 ∧ ∃ c, t.mem = { s.mem with dbuf := bufWrite s.mem.dbuf (ilvIndex k) c }) ∨ t.mem = s.mem := by
  rcases exec_ilvStep_next_iff.mp h with ⟨c, hk, -, -, hend⟩ | ⟨-, hend⟩
  · obtain ⟨-, rfl⟩ := ilvEnd_next_iff.mp hend
    exact .inl ⟨hk, c, State.advance_mem ..⟩
  · obtain ⟨-, rfl⟩ := ilvEnd_next_iff.mp hend
    exact .inr (State.advance_mem ..)

/-- `MRG_STEP` makes one write to `YBUF`. -/
theorem exec_mrgStep_mem {k : Byte} {s t : State} (h : exec (.mrgStep k) s = .next t) :
    k.toNat < 162 ∧ ∃ v, t.mem = { s.mem with ybuf := bufWrite s.mem.ybuf k.toNat v } := by
  obtain ⟨sync, d, hk, -, -, rfl⟩ := exec_mrgStep_next_iff.mp h
  exact ⟨hk, _, State.advance_mem ..⟩

theorem exec_emitStep_mem {k : Byte} {s t : State} (h : exec (.emitStep k) s = .next t) : t.mem = s.mem :=
  (congrArg State.mem (exec_emitStep_frame h).1 :)

/-- Settles O10: each operation's writes, and what a write leaves alone. -/
theorem operationsStoreOnlyToTheirElements : Obligations.OperationsStoreOnlyToTheirElements := by
  intro s t
  refine ⟨exec_keeps_mem, fun h j => ?_, fun k => ⟨fun h => ?_, fun h => ?_, fun h => ?_, exec_emitStep_mem⟩⟩
  · rw [exec_reset_mem h]
    exact ⟨rfl, rfl, rfl⟩
  · obtain ⟨a, b, hmem⟩ := exec_convStep_mem h
    rw [hmem]
    refine ⟨fun j h0 h1 => ?_, rfl, rfl⟩
    rw [bufRead_bufWrite_other _ _ h1, bufRead_bufWrite_other _ _ h0]
  · rcases exec_ilvStep_mem h with ⟨hk, c, hmem⟩ | hmem
    · rw [hmem]
      exact ⟨fun j hj => bufRead_bufWrite_other _ _ fun hji => hj ⟨hji, hk⟩, rfl, rfl⟩
    · rw [hmem]
      exact ⟨fun _ _ => rfl, rfl, rfl⟩
  · obtain ⟨-, v, hmem⟩ := exec_mrgStep_mem h
    rw [hmem]
    exact ⟨fun j hj => bufRead_bufWrite_other _ _ hj, rfl, rfl⟩

/-! ### The canonical form of the buffers -/

/-- Every operation keeps the buffers in canonical form, in every state and at every operand. -/
theorem exec_keeps_mem_wf {i : Instr} {s t : State} (hwf : s.mem.wf) (h : exec i s = .next t) : t.mem.wf := by
  obtain ⟨hcbuf, hdbuf, hybuf⟩ := hwf
  cases i with
  | reset =>
    rw [exec_reset_mem h]
    exact ⟨Buf.wf_nil, Buf.wf_nil, Buf.wf_nil⟩
  | convStep k =>
    have hk := le_of_exec_convStep_next h
    obtain ⟨a, b, hmem⟩ := exec_convStep_mem h
    rw [hmem]
    have hcbuf0 := bufWrite_wf a (i := convIndex0 k) (by unfold convIndex0; omega) hcbuf
    exact ⟨bufWrite_wf b (by unfold convIndex1; omega) hcbuf0, hdbuf, hybuf⟩
  | ilvStep k =>
    rcases exec_ilvStep_mem h with ⟨hk, c, hmem⟩ | hmem
    · rw [hmem]
      exact ⟨hcbuf, bufWrite_wf _ hk hdbuf, hybuf⟩
    · rw [hmem]
      exact ⟨hcbuf, hdbuf, hybuf⟩
  | mrgStep k =>
    obtain ⟨hk, v, hmem⟩ := exec_mrgStep_mem h
    rw [hmem]
    exact ⟨hcbuf, hdbuf, bufWrite_wf _ hk hybuf⟩
  | emitStep k =>
    rw [exec_emitStep_mem h]
    exact ⟨hcbuf, hdbuf, hybuf⟩
  | _ =>
    rw [exec_keeps_mem _ (by simp) h]
    exact ⟨hcbuf, hdbuf, hybuf⟩

/-- Settles O11: the operation keeps the canonical form, and the host's move touches no buffer. -/
theorem stepKeepsMemoryCanonical : Obligations.StepKeepsMemoryCanonical := by
  intro s t hwf ht
  obtain ⟨i, u, -, hu, rfl⟩ := step_next_iff.mp ht
  rw [State.hostMove_mem]
  exact exec_keeps_mem_wf hwf hu

/-! ### Where each operation faults -/

/-- An outcome that is no refusal, and is a fault exactly for the reasons of `P`. -/
def FaultsExactly (r : Result) (P : Fault → Prop) : Prop :=
  (∀ x, r ≠ .refused x) ∧ ∀ e, r = .fault e ↔ P e

theorem faultsExactly_of_next {r : Result} {P : Fault → Prop} {t : State} (hr : r = .next t) (hP : ∀ e, ¬ P e) :
    FaultsExactly r P := by
  simp [FaultsExactly, hr, hP]

theorem faultsExactly_of_fault {r : Result} {P : Fault → Prop} {f : Fault} (hr : r = .fault f)
    (hP : ∀ e, P e ↔ e = f) : FaultsExactly r P := by
  simp [FaultsExactly, hr, hP, eq_comm]

/-- `ACCEPT` and the six operations of `PACK` always go on. -/
theorem exists_next_of_exec (s : State) :
    ∀ i ∈ [Instr.accept, .callNorm, .gridChk, .pwrLookup, .callPack, .gridPack, .assemble],
      ∃ t, exec i s = .next t := by
  simp only [List.forall_mem_cons, exec_accept_next_iff, exec_callNorm_next_iff, exec_gridChk_next_iff,
    exec_pwrLookup_next_iff, exec_callPack_next_iff, exec_gridPack_next_iff, exec_assemble_next_iff, exists_or,
    exists_and_left, exists_eq, and_true, true_and, Bool.eq_true_or_eq_false_self]
  exact fun _ hi => nomatch hi

theorem exec_never_faults (s : State) :
    ∀ i ∈ [Instr.accept, .callNorm, .gridChk, .pwrLookup, .callPack, .gridPack, .assemble],
      FaultsExactly (exec i s) fun _ => False := by
  intro i hi
  obtain ⟨t, ht⟩ := exists_next_of_exec s i hi
  exact faultsExactly_of_next ht fun _ => not_false

/-- `CONV_STEP` faults where `K` is outside its row's range (R52). -/
theorem exec_convStep_of_gt {k : Byte} (h : 81 ≤ k.toNat) (s : State) :
    exec (.convStep k) s = .fault (.indexOutOfRange .cbuf (convIndex0 k)) := by
  have h0 : ¬ convIndex0 k < 162 := by unfold convIndex0; omega
  simp [exec, execConvStep, memWrite, h0]

theorem exec_convStep_faults (k : Byte) (s : State) :
    FaultsExactly (exec (.convStep k) s) fun e => 81 ≤ k.toNat ∧ e = .indexOutOfRange .cbuf (2 * k.toNat) := by
  by_cases hk : k.toNat ≤ 80
  · exact faultsExactly_of_next (exec_convStep_of_le hk s) (by omega)
  · exact faultsExactly_of_fault (exec_convStep_of_gt (by omega) s) fun e => and_iff_right (by omega)

/-- A copying `ILV_STEP` faults when its read of `CBUF[P]` does (R51). -/
theorem exec_ilvStep_of_memRead_error {k : Byte} (hk : ilvIndex k < 162) {s : State} {e : Fault}
    (h : memRead .cbuf s.mem.cbuf s.p.toNat = .error e) : exec (.ilvStep k) s = .fault e := by
  simp [exec, execIlvStep, hk, h]

/-- The last `ILV_STEP` copies nothing: its reversed index is 255. -/
theorem ne_255_of_ilvIndex_lt {k : Byte} (hk : ilvIndex k < 162) : k ≠ 255 := by
  rintro rfl
  exact absurd hk (by decide)

/-- The last `ILV_STEP` faults when the count is wrong (R250). -/
theorem ilvEnd_of_count_ne {s : State} (h : s.p ≠ 162) : ilvEnd 255 s = .fault (.interleaverCount s.p) := by
  rw [ilvEnd, if_pos ⟨rfl, h⟩]

theorem exec_ilvStep_faults (k : Byte) (s : State) :
    FaultsExactly (exec (.ilvStep k) s) fun e =>
      (ilvIndex k < 162 ∧ 162 ≤ s.p.toNat ∧ e = .indexOutOfRange .cbuf s.p.toNat) ∨
      (ilvIndex k < 162 ∧ s.p.toNat < 162 ∧ bufRead s.mem.cbuf s.p.toNat = none ∧
        e = .unwrittenElement .cbuf s.p.toNat) ∨
      (k = 255 ∧ s.p ≠ 162 ∧ e = .interleaverCount s.p) := by
  by_cases hk : ilvIndex k < 162
  · have hne := ne_255_of_ilvIndex_lt hk
    by_cases hp : s.p.toNat < 162
    · have hp' : ¬ 162 ≤ s.p.toNat := by omega
      cases hc : bufRead s.mem.cbuf s.p.toNat with
      | none =>
        exact faultsExactly_of_fault
          (exec_ilvStep_of_memRead_error hk (memRead_error_iff.mpr (.inl ⟨hp, hc, rfl⟩))) (by tauto)
      | some c =>
        exact faultsExactly_of_next ((exec_ilvStep_copy hk hp hc).trans (ilvEnd_of_ne hne _)) (by tauto)
    · have hp' : 162 ≤ s.p.toNat := by omega
      exact faultsExactly_of_fault
        (exec_ilvStep_of_memRead_error hk (memRead_error_iff.mpr (.inr ⟨hp', rfl⟩))) (by tauto)
  · have hskip := exec_ilvStep_skip hk s
    by_cases hlast : k = 255
    · subst hlast
      by_cases hp : s.p = 162
      · exact faultsExactly_of_next (hskip.trans (ilvEnd_last hp)) (by tauto)
      · exact faultsExactly_of_fault (hskip.trans (ilvEnd_of_count_ne hp)) (by tauto)
    · exact faultsExactly_of_next (hskip.trans (ilvEnd_of_ne hlast s)) (by tauto)

/-- `MRG_STEP` faults at the ROM, which it reads first, where `K` is outside the table (R51). -/
theorem exec_mrgStep_of_ge {k : Byte} (h : 162 ≤ k.toNat) (s : State) :
    exec (.mrgStep k) s = .fault (.indexOutOfRange .syncRom k.toNat) := by
  simp [exec, execMrgStep, romRead, h]

/-- `MRG_STEP` faults at a data bit not written (R51). -/
theorem exec_mrgStep_of_unwritten {k : Byte} {s : State} (hk : k.toNat < 162)
    (hd : bufRead s.mem.dbuf k.toNat = none) :
    exec (.mrgStep k) s = .fault (.unwrittenElement .dbuf k.toNat) := by
  simp [exec, execMrgStep, romRead, memRead, hk, hd]

theorem exec_mrgStep_faults (k : Byte) (s : State) :
    FaultsExactly (exec (.mrgStep k) s) fun e =>
      (162 ≤ k.toNat ∧ e = .indexOutOfRange .syncRom k.toNat) ∨
      (k.toNat < 162 ∧ bufRead s.mem.dbuf k.toNat = none ∧ e = .unwrittenElement .dbuf k.toNat) := by
  by_cases hk : k.toNat < 162
  · have hk' : ¬ 162 ≤ k.toNat := by omega
    cases hd : bufRead s.mem.dbuf k.toNat with
    | none => exact faultsExactly_of_fault (exec_mrgStep_of_unwritten hk hd) (by simp [hk, hk'])
    | some d =>
      have hsync := List.getElem?_eq_getElem (l := syncRom) (i := k.toNat) (by rwa [syncRom_length])
      exact faultsExactly_of_next (exec_mrgStep_of_lt hk hsync hd) (by simp [hk'])
  · have hk' : 162 ≤ k.toNat := by omega
    exact faultsExactly_of_fault (exec_mrgStep_of_ge hk' s) (by simp [hk, hk'])

/-- A taken `EMIT_STEP` faults when its read of `YBUF[K]` does (R51). -/
theorem exec_emitStep_of_memRead_error {k : Byte} {s : State} {e : Fault} (hready : s.ports.symReady = true)
    (h : memRead .ybuf s.mem.ybuf k.toNat = .error e) : exec (.emitStep k) s = .fault e := by
  simp [exec, execEmitStep, hready, h]

theorem exec_emitStep_faults (k : Byte) (s : State) :
    FaultsExactly (exec (.emitStep k) s) fun e =>
      s.ports.symReady = true ∧
        ((162 ≤ k.toNat ∧ e = .indexOutOfRange .ybuf k.toNat) ∨
          (k.toNat < 162 ∧ bufRead s.mem.ybuf k.toNat = none ∧ e = .unwrittenElement .ybuf k.toNat)) := by
  cases hready : s.ports.symReady with
  | false => exact faultsExactly_of_next (exec_emitStep_wait hready) (by simp)
  | true =>
    by_cases hk : k.toNat < 162
    · have hk' : ¬ 162 ≤ k.toNat := by omega
      cases hv : bufRead s.mem.ybuf k.toNat with
      | none =>
        exact faultsExactly_of_fault
          (exec_emitStep_of_memRead_error hready (memRead_error_iff.mpr (.inl ⟨hk, hv, rfl⟩))) (by simp [hk, hk'])
      | some v => exact faultsExactly_of_next (exec_emitStep_taken hready hk hv) (by simp [hk'])
    · have hk' : 162 ≤ k.toNat := by omega
      exact faultsExactly_of_fault
        (exec_emitStep_of_memRead_error hready (memRead_error_iff.mpr (.inr ⟨hk', rfl⟩))) (by simp [hk, hk'])

/-- Settles O7: the loop operations one by one; every other operation always goes on. -/
theorem operationsStopExactlyAtForbiddenAccesses : Obligations.OperationsStopExactlyAtForbiddenAccesses := by
  intro i s
  cases i with
  | reset => exact faultsExactly_of_next (exec_reset_next_iff.mpr rfl) fun _ => not_false
  | convStep k => exact exec_convStep_faults k s
  | ilvStep k => exact exec_ilvStep_faults k s
  | mrgStep k => exact exec_mrgStep_faults k s
  | emitStep k => exact exec_emitStep_faults k s
  | _ => exact exec_never_faults s _ (by simp)

end Sys2Proof.Machine
end

section
/-! SUPPORT. The encoding family: the selection word and its three fields, the decoder as the inverse of the encoder,
the operation map by match and mask, the reserved words, and the step of a decoded operation (spec/30_encoding.md R80,
R82). -/

namespace Sys2Proof.Machine

/-! ### The selection word and its fields -/

/-- Two words put side by side are determined by the result. -/
theorem bitVec_append_inj {m n : Nat} {a b : BitVec m} {x y : BitVec n} : a ++ x = b ++ y ↔ a = b ∧ x = y := by
  refine ⟨fun h => ⟨?_, ?_⟩, fun ⟨ha, hx⟩ => ha ▸ hx ▸ rfl⟩
  · simpa only [BitVec.extractLsb'_append_eq_left] using congrArg (BitVec.extractLsb' n m) h
  · simpa only [BitVec.extractLsb'_append_eq_right] using congrArg (BitVec.extractLsb' 0 n) h

theorem selectionWord_inj {rst : Bool} {ph ph' : BitVec 3} {k k' : Byte} :
    selectionWord rst ph k = selectionWord rst ph' k' ↔ ph = ph' ∧ k = k' :=
  (BitVec.append_right_inj _).trans bitVec_append_inj

/-- Every 12-bit word is the selection word of its own three fields. -/
theorem selectionWord_fields (w : BitVec 12) :
    selectionWord (w.getLsbD 11) (w.extractLsb' 8 3) (w.extractLsb' 0 8) = w := by
  have hrst : BitVec.ofBool (w.getLsbD 11) = w.extractLsb' 11 1 := by
    ext i hi
    simp [Nat.lt_one_iff.mp hi]
  rw [selectionWord, hrst, BitVec.extractLsb'_append_extractLsb'_eq_extractLsb' (by rfl)]
  exact BitVec.extractLsb'_append_extractLsb'

/-! ### The decoder inverts the encoder -/

/-- Decoding gives a well-formed operation back, its operand from the `K` field. -/
theorem decode_encode {i : Instr} (h : i.wf = true) : decode (encode i) = .ok i := by
  cases i with
  | convStep k => exact (decode_selectionWord ..).trans (decodeSequencer_conv (of_decide_eq_true h))
  | ilvStep k => exact (decode_selectionWord ..).trans (decodeSequencer_ilv k)
  | mrgStep k => exact (decode_selectionWord ..).trans (decodeSequencer_merge (of_decide_eq_true h))
  | emitStep k => exact (decode_selectionWord ..).trans (decodeSequencer_emit (of_decide_eq_true h))
  | _ => rfl

/-- What a word decodes to is well formed and, `RESET` apart, has that word as its encoding. -/
theorem wf_and_encode_of_decode {w : BitVec 12} {i : Instr} (h : decode w = .ok i) :
    i.wf = true ∧ (i ≠ .reset → encode i = w) := by
  rw [← selectionWord_fields w, decode_selectionWord] at h
  split at h
  · cases h
    exact ⟨rfl, fun hne => absurd rfl hne⟩
  · next hrst =>
    obtain ⟨hwf, -, hword⟩ := decodeSequencer_ok h
    rw [← Bool.eq_false_of_not_eq_true hrst, selectionWord_fields] at hword
    exact ⟨hwf, fun _ => hword⟩

/-- Settles O2: encode then decode, and decode then encode. -/
theorem decodeInvertsEncode : Obligations.DecodeInvertsEncode :=
  ⟨fun _ => decode_encode, fun _ _ => wf_and_encode_of_decode⟩

/-- The decoder of the sequencer word by the encoder. -/
theorem decodeSequencer_eq_ok_iff {ph : BitVec 3} {k : Byte} {i : Instr} :
    decodeSequencer ph k = .ok i ↔ i ≠ .reset ∧ i.wf = true ∧ encode i = selectionWord false ph k := by
  constructor
  · intro h
    obtain ⟨hwf, hne, hword⟩ := decodeSequencer_ok h
    exact ⟨hne, hwf, hword⟩
  · rintro ⟨-, hwf, hword⟩
    have h := decode_encode hwf
    rwa [hword, decode_selectionWord] at h

/-- Settles O1: eighteen fixed words, each by running the decoder. -/
theorem wordsOfTheOperationMapDecode : Obligations.WordsOfTheOperationMapDecode := by
  unfold Obligations.WordsOfTheOperationMapDecode
  decide

/-! ### The operation map by match and mask -/

/-- A row tests the word under its mask, and `K`. -/
theorem selects_iff {r : Row} {ph : BitVec 3} {k : Byte} :
    r.selects (ph ++ k) = true ↔ (ph ++ k) &&& r.mask = r.matchWord ∧ k.toNat ≤ r.lastK := by
  have hk : (ph ++ k).extractLsb' 0 8 = k := BitVec.extractLsb'_append_eq_right
  rw [Row.selects, hk, Bool.and_eq_true, decide_eq_true_iff, decide_eq_true_iff]

/-- A row with the full mask selects one sequencer word. -/
theorem selects_full_mask {p ph : BitVec 3} {j k : Byte} :
    (Row.mk (p ++ j) 0x7FF j.toNat).selects (ph ++ k) = true ↔ selectionWord false p j = selectionWord false ph k := by
  have hmask : (ph ++ k) &&& (0x7FF : BitVec 11) = ph ++ k := BitVec.and_allOnes
  rw [selects_iff, hmask, bitVec_append_inj, selectionWord_inj]
  constructor
  · rintro ⟨⟨rfl, rfl⟩, -⟩
    exact ⟨rfl, rfl⟩
  · rintro ⟨rfl, rfl⟩
    exact ⟨⟨rfl, rfl⟩, Nat.le_refl _⟩

/-- A row with the mask of `PH` selects the words of its phase whose `K` is in range. -/
theorem selects_phase_mask {p ph : BitVec 3} {k : Byte} {lastK : Nat} :
    (Row.mk (p ++ (0 : Byte)) 0x700 lastK).selects (ph ++ k) = true ↔ p = ph ∧ k.toNat ≤ lastK := by
  have hmask : (ph ++ k) &&& (0x700 : BitVec 11) = ph ++ (0 : Byte) := by
    calc (ph ++ k) &&& (BitVec.allOnes 3 ++ (0 : Byte))
      _ = (ph &&& BitVec.allOnes 3) ++ (k &&& 0) := BitVec.and_append
      _ = ph ++ (0 : Byte) := congrArg₂ (· ++ ·) BitVec.and_allOnes BitVec.and_zero
  rw [selects_iff, hmask, BitVec.append_left_inj, eq_comm (a := ph)]

/-- The row of a loop phase, with `K` as the operand, selects the words that encode an operand in range. -/
theorem selects_phase_mask_operand {p ph : BitVec 3} {j k : Byte} {lastK : Nat} :
    (Row.mk (p ++ (0 : Byte)) 0x700 lastK).selects (ph ++ k) = true ∧ j = k ↔
      j.toNat ≤ lastK ∧ selectionWord false p j = selectionWord false ph k := by
  rw [selects_phase_mask, selectionWord_inj]
  constructor
  · rintro ⟨⟨hph, hle⟩, rfl⟩
    exact ⟨hle, hph, rfl⟩
  · rintro ⟨hle, hph, rfl⟩
    exact ⟨⟨hph, hle⟩, rfl⟩

/-- Settles O3: an operation's row, with its operand, selects the one word that encodes it. -/
theorem operationIsTheOneItsRowSelects : Obligations.OperationIsTheOneItsRowSelects := by
  refine ⟨fun ph k i => ?_, fun ph k => decode_selectionWord true ph k⟩
  rw [decode_selectionWord, if_neg Bool.false_ne_true, decodeSequencer_eq_ok_iff]
  refine and_congr_right fun hne => ?_
  cases i with
  | reset => exact absurd rfl hne
  | convStep j | mrgStep j | emitStep j =>
    rw [Instr.wf, decide_eq_true_iff]
    exact selects_phase_mask_operand.symm
  | ilvStep j =>
    have hwf : (Instr.ilvStep j).wf = true ↔ j.toNat ≤ 255 := iff_of_true rfl (Nat.le_of_lt_succ j.isLt)
    rw [hwf]
    exact selects_phase_mask_operand.symm
  | _ => exact (and_iff_right rfl).trans (selects_full_mask.symm.trans (and_iff_left trivial).symm)

/-! ### The reserved words -/

/-- The reserved values of `{ph, k}`, as R82 lists them. -/
def IsReserved (ph : BitVec 3) (k : Byte) : Prop :=
  (ph = 0 ∧ k ≠ 0) ∨ (ph = 1 ∧ 6 ≤ k.toNat) ∨ (ph = 2 ∧ 81 ≤ k.toNat) ∨
    ((ph = 4 ∨ ph = 5) ∧ 162 ≤ k.toNat) ∨ ph = 6 ∨ ph = 7

/-- A row that tests `K` first: the word is refused when it fails the test and the rest refuses it. -/
theorem exists_ite_eq_error_iff {c : Prop} [Decidable c] {i : Instr} {x : Except Reserved Instr} :
    (∃ kind, (if c then .ok i else x) = .error kind) ↔ ¬ c ∧ ∃ kind, x = .error kind := by
  split <;> simp [*]

/-- A row with a last `K` refuses what lies beyond. -/
theorem exists_ite_le_eq_error_iff {k : Byte} {lastK : Nat} {i : Instr} {e : Reserved} :
    (∃ kind, (if k.toNat ≤ lastK then Except.ok i else .error e) = .error kind) ↔ lastK + 1 ≤ k.toNat := by
  simp [exists_ite_eq_error_iff, Order.add_one_le_iff]

/-- `PACK` has six sub-steps. -/
theorem exists_packStep_eq_error_iff {k : Byte} : (∃ kind, packStep k = .error kind) ↔ 6 ≤ k.toNat := by
  simp only [packStep, exists_ite_eq_error_iff, Except.error.injEq, exists_eq', and_true]
  bv_omega

theorem phase_cases : ∀ ph : BitVec 3,
    ph = 0 ∨ ph = 1 ∨ ph = 2 ∨ ph = 3 ∨ ph = 4 ∨ ph = 5 ∨ ph = 6 ∨ ph = 7 := by decide

/-- The decoder refuses exactly the reserved words, phase by phase. -/
theorem exists_decodeSequencer_eq_error_iff {ph : BitVec 3} {k : Byte} :
    (∃ kind, decodeSequencer ph k = .error kind) ↔ IsReserved ph k := by
  rcases phase_cases ph with rfl | rfl | rfl | rfl | rfl | rfl | rfl | rfl
  · simp [decodeSequencer, IsReserved, exists_ite_eq_error_iff]
  · simp [decodeSequencer, IsReserved, exists_packStep_eq_error_iff]
  · simp [decodeSequencer, IsReserved, exists_ite_le_eq_error_iff]
  · simp [decodeSequencer, IsReserved]
  · simp [decodeSequencer, IsReserved, exists_ite_le_eq_error_iff]
  · simp [decodeSequencer, IsReserved, exists_ite_le_eq_error_iff]
  · simp [decodeSequencer, IsReserved]
  · simp [decodeSequencer, IsReserved]

/-- The host's move refuses nothing. -/
theorem afterStep_refused_iff {x : Result} {r : Refusal} : afterStep x = .refused r ↔ x = .refused r := by
  unfold afterStep
  split <;> simp

/-- An operation is never refused, so a refused step is one with no operation. -/
theorem step_refused_iff {s : State} {kind : Reserved} (hrst : s.ports.rst = false) :
    step s = .refused (.reservedWord kind) ↔ decodeSequencer s.ph s.k = .error kind := by
  rw [step_eq, if_neg (by simp [hrst])]
  cases decodeSequencer s.ph s.k with
  | error e => simp
  | ok i =>
    obtain ⟨hexec, -⟩ := operationsStopExactlyAtForbiddenAccesses i s
    simp [afterStep_refused_iff, hexec]

/-- The sequencer word of a state of the invariant selects an operation. -/
theorem not_isReserved_of_inv {s : State} (h : s.Inv) : ¬ IsReserved s.ph s.k := by
  obtain ⟨i, hi, -⟩ := h.ready
  intro hres
  obtain ⟨kind, hkind⟩ := exists_decodeSequencer_eq_error_iff.mpr hres
  cases hi.symm.trans hkind

/-- Settles O4: the reserved words are the ones with no operation, and the invariant excludes them. -/
theorem reservedWordsAreRefusedAndUnreachable : Obligations.ReservedWordsAreRefusedAndUnreachable :=
  ⟨fun _ hrst => exists_decodeSequencer_eq_error_iff.symm.trans (exists_congr fun _ => (step_refused_iff hrst).symm),
    fun _ ht => not_isReserved_of_inv (reachable_inv ht)⟩

/-! ### The step of a decoded operation -/

theorem step_of_decode {s : State} {i : Instr} (h : decode s.selection = .ok i) : step s = afterStep (exec i s) := by
  simp [step, h]

/-- The host's next move: the ports take the next levels, and nothing else changes. -/
theorem State.hostMove_of_host_cons {s : State} {p : Ports} {ps : List Ports} (h : s.host = p :: ps) :
    s.hostMove = { s with ports := p, host := ps } := by
  simp [State.hostMove, h]

/-- Settles O6: the outcome of the operation, one by one, with the host's move after it. -/
theorem stepRunsTheDecodedOperation : Obligations.StepRunsTheDecodedOperation := by
  refine ⟨fun s i hi => ?_, fun u => ⟨u.hostMove_of_host_nil, fun _ _ => State.hostMove_of_host_cons⟩⟩
  obtain ⟨hwf, -⟩ := wf_and_encode_of_decode hi
  have hstep := step_of_decode hi
  refine ⟨hwf, fun u hu => ?_, fun e he => ?_, fun e he => ?_⟩
  · rw [hstep, hu, afterStep]
  · rw [hstep, he, afterStep]
  · rw [hstep, he, afterStep]

end Sys2Proof.Machine
end

section
/-! SUPPORT. The 110-bit request record: a record is its fields side by side, and each field is a slice of it
(spec/30_encoding.md R70). -/

namespace Sys2Proof

/-! ### Six characters in 48 bits -/

theorem fieldOfBits_fieldBits (f : Field6) : fieldOfBits (fieldBits f) = f := by
  simp (disch := decide) only [fieldOfBits, fieldBits, BitVec.extractLsb'_append_eq_of_add_le,
    BitVec.extractLsb'_append_eq_left, BitVec.extractLsb'_eq_self]

/-- Adjacent slices side by side are the slice of both. -/
theorem fieldBits_fieldOfBits (b : BitVec 48) : fieldBits (fieldOfBits b) = b := by
  rw [fieldBits, fieldOfBits]
  repeat rw [BitVec.extractLsb'_append_extractLsb'_eq_extractLsb' (by rfl)]
  exact BitVec.extractLsb'_eq_self

/-! ### The record -/

/-- The five parts of a record, the two fields of characters whole. -/
theorem Req.slices_toBits (q : Req) :
    q.toBits.extractLsb' 107 3 = q.callLen ∧ q.toBits.extractLsb' 59 48 = fieldBits q.call ∧
      q.toBits.extractLsb' 56 3 = q.gridLen ∧ q.toBits.extractLsb' 8 48 = fieldBits q.grid ∧
      q.toBits.extractLsb' 0 8 = q.dbm := by
  simp (disch := decide) only [Req.toBits, BitVec.extractLsb'_append_eq_of_add_le,
    BitVec.extractLsb'_append_eq_left, BitVec.extractLsb'_eq_self, and_self]

theorem Req.ofBits_toBits (q : Req) : Req.ofBits q.toBits = q := by
  obtain ⟨hcallLen, hcall, hgridLen, hgrid, hdbm⟩ := Req.slices_toBits q
  rw [Req.ofBits, hcallLen, hcall, hgridLen, hgrid, hdbm, fieldOfBits_fieldBits, fieldOfBits_fieldBits]

theorem Req.toBits_ofBits (b : BitVec 110) : (Req.ofBits b).toBits = b := by
  rw [Req.toBits, Req.ofBits, fieldBits_fieldOfBits, fieldBits_fieldOfBits]
  repeat rw [BitVec.extractLsb'_append_extractLsb'_eq_extractLsb' (by rfl)]
  exact BitVec.extractLsb'_eq_self

/-- A slice of a slice. -/
theorem extractLsb'_extractLsb' {w start len i m : Nat} (b : BitVec w) (h : i + m ≤ len) :
    (b.extractLsb' start len).extractLsb' i m = b.extractLsb' (start + i) m := by
  ext j hj
  have hlt : i + j < len := by omega
  simp [hlt, Nat.add_assoc]

/-- Where the characters of a field stand in a word that holds the field from bit `start` on. -/
theorem slots_of_slice {w start : Nat} {b : BitVec w} {f : Field6} (h : b.extractLsb' start 48 = fieldBits f) :
    b.extractLsb' (start + 40) 8 = f.c0 ∧ b.extractLsb' (start + 32) 8 = f.c1 ∧
      b.extractLsb' (start + 24) 8 = f.c2 ∧ b.extractLsb' (start + 16) 8 = f.c3 ∧
      b.extractLsb' (start + 8) 8 = f.c4 ∧ b.extractLsb' (start + 0) 8 = f.c5 := by
  have hslots := fieldOfBits_fieldBits f
  rw [← h] at hslots
  simp (disch := decide) only [fieldOfBits, extractLsb'_extractLsb'] at hslots
  rw [← hslots]
  exact ⟨rfl, rfl, rfl, rfl, rfl, rfl⟩

/-- Settles O5: the offsets of the characters are those of their field, counted from the field's own. -/
theorem requestRecordRoundTrips : Obligations.RequestRecordRoundTrips := by
  refine ⟨Req.ofBits_toBits, Req.toBits_ofBits, fun q => ?_⟩
  obtain ⟨hcallLen, hcall, hgridLen, hgrid, hdbm⟩ := Req.slices_toBits q
  obtain ⟨hc0, hc1, hc2, hc3, hc4, hc5⟩ := slots_of_slice hcall
  obtain ⟨hg0, hg1, hg2, hg3, hg4, hg5⟩ := slots_of_slice hgrid
  exact ⟨hcallLen, hc0, hc1, hc2, hc3, hc4, hc5, hgridLen, hg0, hg1, hg2, hg3, hg4, hg5, hdbm⟩

end Sys2Proof
end

section
/-! SUPPORT. The presented strings of `field_packer` character by character; the callsign grammar and the locator form,
accepted exactly by the model's tests (spec/40_field_packer.md R101, R105). -/

namespace Sys2Proof.Machine

/-! ### The presented string -/

/-- The presented string after case folding, cut at the presented length (R101, R105). -/
def presented (x : Field6) (len : BitVec 3) : List Byte := ((charList x).take len.toNat).map up

theorem isPresented_iff {x : Field6} {len : BitVec 3} {u : List Byte} :
    IsPresented x len u ↔ len.toNat ≤ 6 ∧ u = presented x len := Iff.rfl

theorem length_presented {x : Field6} {len : BitVec 3} (h : len.toNat ≤ 6) :
    (presented x len).length = len.toNat := by
  rw [presented, List.length_map, List.length_take]
  exact Nat.min_eq_left h

theorem length_of_isPresented {x : Field6} {len : BitVec 3} {u : List Byte} (h : IsPresented x len u) :
    u.length = len.toNat := by
  obtain ⟨hlen, rfl⟩ := isPresented_iff.mp h
  exact length_presented hlen

theorem presented_getElem? {x : Field6} {len : BitVec 3} {i : Fin 6} (h : i.val < len.toNat) :
    (presented x len)[i.val]? = some (folded x i) := by
  have hchar : ∀ i : Fin 6, (charList x)[i.val]? = some (charAt x i) := by
    simp [Fin.forall_fin_succ, charList, charAt]
  rw [presented, List.getElem?_map, List.getElem?_take_of_lt h, hchar, Option.map_some, folded]

/-- The string from index `i` on begins with the folded character of `i`. -/
theorem drop_presented {x : Field6} {len : BitVec 3} (i : Fin 6) (h : i.val < len.toNat) :
    (presented x len).drop i.val = folded x i :: (presented x len).drop (i.val + 1) := by
  obtain ⟨hlt, helem⟩ := List.getElem?_eq_some_iff.mp (presented_getElem? (x := x) h)
  rw [List.drop_eq_getElem_cons hlt, helem]

/-- A string of two characters or more: its first two, then the rest. -/
theorem presented_eq_two {x : Field6} {len : BitVec 3} (h : 2 ≤ len.toNat) :
    presented x len = folded x 0 :: folded x 1 :: (presented x len).drop 2 := by
  have h0 := drop_presented (x := x) (len := len) 0 (by omega)
  have h1 := drop_presented (x := x) (len := len) 1 h
  exact h0.trans (congrArg _ h1)

/-- A string of three characters or more: its first three, then the rest. -/
theorem presented_eq_three {x : Field6} {len : BitVec 3} (h : 3 ≤ len.toNat) :
    presented x len = folded x 0 :: folded x 1 :: folded x 2 :: (presented x len).drop 3 := by
  have h2 := drop_presented (x := x) (len := len) 2 h
  exact (presented_eq_two (by omega)).trans (congrArg (folded x 0 :: folded x 1 :: ·) h2)

/-- A string of four characters or more: its first four, then the rest. -/
theorem presented_eq_four {x : Field6} {len : BitVec 3} (h : 4 ≤ len.toNat) :
    presented x len = folded x 0 :: folded x 1 :: folded x 2 :: folded x 3 :: (presented x len).drop 4 := by
  have h3 := drop_presented (x := x) (len := len) 3 h
  exact (presented_eq_three (by omega)).trans (congrArg (folded x 0 :: folded x 1 :: folded x 2 :: ·) h3)

/-- What holds of every character from index `a` on. -/
theorem forall_mem_drop_presented {x : Field6} {len : BitVec 3} (hlen : len.toNat ≤ 6) {a : Nat} {P : Byte → Prop} :
    (∀ c ∈ (presented x len).drop a, P c) ↔ ∀ i : Fin 6, a ≤ i.val → i.val < len.toNat → P (folded x i) := by
  constructor
  · intro h i ha hi
    refine h _ (List.mem_iff_getElem?.mpr ⟨i.val - a, ?_⟩)
    rw [List.getElem?_drop, Nat.add_sub_cancel' ha, presented_getElem? hi]
  · intro h c hc
    obtain ⟨j, hj⟩ := List.mem_iff_getElem?.mp hc
    rw [List.getElem?_drop] at hj
    have hlt : a + j < len.toNat := by
      obtain ⟨hlt, -⟩ := List.getElem?_eq_some_iff.mp hj
      rwa [length_presented hlen] at hlt
    have hfolded := presented_getElem? (x := x) (i := ⟨a + j, by omega⟩) hlt
    rw [Option.some.inj (hj.symm.trans hfolded)]
    exact h _ (Nat.le_add_right a j) hlt

/-! ### The callsign grammar -/

/-- With one character before the digit the grammar is `fit1` (R101). -/
theorem fit1_iff_of_isPresented {call : Field6} {len : BitVec 3} {a digit : Byte} {tail : List Byte}
    (h : IsPresented call len (a :: digit :: tail)) :
    fit1 call len.toNat = true ↔
      isAlnum a = true ∧ isDigit digit = true ∧ 1 ≤ tail.length ∧ tail.length ≤ 3 ∧ ∀ c ∈ tail, isUpper c = true := by
  obtain ⟨hlen, hu⟩ := isPresented_iff.mp h
  have hlength : tail.length + 2 = len.toNat := length_of_isPresented h
  rw [presented_eq_two (by omega)] at hu
  injection hu with ha hu
  injection hu with hdigit htail
  have hlo : 1 ≤ tail.length ↔ 3 ≤ len.toNat := by omega
  have hhi : tail.length ≤ 3 ↔ len.toNat ≤ 5 := by omega
  rw [fit1_iff, hlo, hhi, ha, hdigit, htail, forall_mem_drop_presented hlen]

/-- With two characters before the digit the grammar is `fit2` (R101). -/
theorem fit2_iff_of_isPresented {call : Field6} {len : BitVec 3} {a b digit : Byte} {tail : List Byte}
    (h : IsPresented call len (a :: b :: digit :: tail)) :
    fit2 call len.toNat = true ↔
      1 ≤ tail.length ∧ isAlnum a = true ∧ isAlnum b = true ∧ isDigit digit = true ∧
        ∀ c ∈ tail, isUpper c = true := by
  obtain ⟨hlen, hu⟩ := isPresented_iff.mp h
  have hlength : tail.length + 3 = len.toNat := length_of_isPresented h
  rw [presented_eq_three (by omega)] at hu
  injection hu with ha hu
  injection hu with hb hu
  injection hu with hdigit htail
  have hlo : 1 ≤ tail.length ↔ 4 ≤ len.toNat := by omega
  rw [fit2_iff, hlo, ha, hb, hdigit, htail, forall_mem_drop_presented hlen]

theorem not_isUpper_of_isDigit {c : Byte} (h : isDigit c = true) : isUpper c = false := by
  simp only [isDigit, isUpper, Bool.and_eq_true, decide_eq_true_eq, Bool.and_eq_false_iff, decide_eq_false_iff_not]
    at h ⊢
  omega

/-- The two fits exclude each other: character 2 is a letter in the one and a digit in the other (R101). -/
theorem fit1_eq_false_of_fit2 {call : Field6} {len : Nat} (h : fit2 call len = true) : fit1 call len = false := by
  obtain ⟨-, -, -, hdigit, -⟩ := fit2_iff.mp h
  refine Bool.eq_false_iff.mpr fun h1 => ?_
  obtain ⟨-, -, hlo, -, hletters⟩ := fit1_iff.mp h1
  exact Bool.false_ne_true ((not_isUpper_of_isDigit hdigit).symm.trans (hletters 2 (by decide) hlo))

/-- A reading puts the digit at index 1 or 2, which is one of the two fits and decides the leading spaces. -/
theorem callOk_and_leadingSpaces_of_parse {call : Field6} {len : BitVec 3} {head : List Byte} {digit : Byte}
    {tail : List Byte} (h : CallsignParse call len head digit tail) :
    callOk call len = true ∧ leadingSpaces call len = 2 - head.length := by
  obtain ⟨hpres, hlo, hhi, hhead, hdigit, htlo, hthi, htail⟩ := h
  obtain ⟨hlen, -⟩ := isPresented_iff.mp hpres
  have hlength := length_of_isPresented hpres
  rw [List.length_append, List.length_cons] at hlength
  match head with
  | [a] =>
    have hfit := (fit1_iff_of_isPresented hpres).mpr ⟨hhead a (by simp), hdigit, htlo, hthi, htail⟩
    exact ⟨callOk_iff.mpr ⟨by omega, hlen, .inl hfit⟩, by simp [leadingSpaces, hfit]⟩
  | [a, b] =>
    have hfit := (fit2_iff_of_isPresented hpres).mpr ⟨htlo, hhead a (by simp), hhead b (by simp), hdigit, htail⟩
    exact ⟨callOk_iff.mpr ⟨by omega, hlen, .inr hfit⟩, by simp [leadingSpaces, fit1_eq_false_of_fit2 hfit]⟩

/-- `CALL_NORM`'s test passes exactly where the grammar has a reading. -/
theorem callOk_iff_exists_parse {call : Field6} {len : BitVec 3} :
    callOk call len = true ↔ ∃ head digit tail, CallsignParse call len head digit tail := by
  refine ⟨fun h => ?_, fun ⟨_, _, _, h⟩ => (callOk_and_leadingSpaces_of_parse h).1⟩
  obtain ⟨hlo, hlen, hfit | hfit⟩ := callOk_iff.mp h
  · have hpres := isPresented_iff.mpr ⟨hlen, (presented_eq_two (x := call) (by omega)).symm⟩
    obtain ⟨ha, hdigit, htlo, hthi, htail⟩ := (fit1_iff_of_isPresented hpres).mp hfit
    exact ⟨[_], _, _, hpres, by simp, by simp, by simpa using ha, hdigit, htlo, hthi, htail⟩
  · have hpres := isPresented_iff.mpr ⟨hlen, (presented_eq_three (x := call) hlo).symm⟩
    obtain ⟨htlo, ha, hb, hdigit, htail⟩ := (fit2_iff_of_isPresented hpres).mp hfit
    refine ⟨[_, _], _, _, hpres, by simp, by simp, by simp [ha, hb], hdigit, htlo, ?_, htail⟩
    rw [List.length_drop, length_presented hlen]
    omega

/-- `F` as a string: the leading spaces, the presented string, and spaces to fill (R101). -/
theorem charList_normalise {call : Field6} {len : BitVec 3} (h : callOk call len = true) :
    charList (normalise call len) =
      List.replicate (leadingSpaces call len) 0x20 ++ presented call len ++
        List.replicate (6 - leadingSpaces call len - len.toNat) 0x20 := by
  obtain ⟨-, hlen, hfit⟩ := callOk_iff.mp h
  cases h1 : fit1 call len.toNat with
  | true =>
    obtain ⟨-, -, hlo, hhi, -⟩ := fit1_iff.mp h1
    have hcases : len.toNat = 3 ∨ len.toNat = 4 ∨ len.toNat = 5 := by omega
    rw [normalise_of_fit1 h1, leadingSpaces, if_pos h1]
    rcases hcases with hl | hl | hl <;> simp [presented, charList, folded, charAt, space, hl]
  | false =>
    have h2 : fit2 call len.toNat = true := by simpa [h1] using hfit
    obtain ⟨hlo, -⟩ := fit2_iff.mp h2
    have hcases : len.toNat = 4 ∨ len.toNat = 5 ∨ len.toNat = 6 := by omega
    rw [normalise_of_fit2 h1 h2, leadingSpaces, h1]
    rcases hcases with hl | hl | hl <;> simp [presented, charList, folded, charAt, space, hl]

/-- Settles O17: a reading is exactly what the test accepts, and its parts are the parts of the field. -/
theorem callNormFollowsTheGrammar : Obligations.CallNormFollowsTheGrammar := by
  refine ⟨rfl, fun s head digit tail h => ?_, fun s h => ?_⟩
  · obtain ⟨hok, hspaces⟩ := callOk_and_leadingSpaces_of_parse h
    refine ⟨normalise s.latch.call s.latch.callLen, ?_, exec_callNorm_next_iff.mpr (.inl ⟨hok, rfl⟩)⟩
    obtain ⟨hpres, hlo, hhi, -, -, -, hthi, -⟩ := h
    obtain ⟨-, hu⟩ := isPresented_iff.mp hpres
    have hlength := length_of_isPresented hpres
    rw [List.length_append, List.length_cons] at hlength
    have hfill : 6 - (2 - head.length) - s.latch.callLen.toNat = 3 - tail.length := by omega
    rw [charList_normalise hok, hspaces, hfill, ← hu, List.append_assoc (List.replicate _ _) head]
  · exact exec_callNorm_next_iff.mpr (.inr ⟨Bool.eq_false_iff.mpr (h ∘ callOk_iff_exists_parse.mp), rfl⟩)

/-! ### The locator form -/

/-- An accepted locator has 4 or 6 characters, each in its alphabet (R105). -/
theorem gridOk_iff {grid : Field6} {len : BitVec 3} :
    gridOk grid len = true ↔
      (isAtoR (folded grid 0) = true ∧ isAtoR (folded grid 1) = true ∧ isDigit (folded grid 2) = true ∧
        isDigit (folded grid 3) = true) ∧
      (len.toNat = 4 ∨ len.toNat = 6 ∧ isAtoX (folded grid 4) = true ∧ isAtoX (folded grid 5) = true) := by
  simp only [gridOk, Bool.and_eq_true, Bool.or_eq_true, decide_eq_true_eq]
  tauto

/-- Of a string of six characters the last two are left after the first four. -/
theorem drop_four_presented {x : Field6} {len : BitVec 3} (h : len.toNat = 6) :
    (presented x len).drop 4 = [folded x 4, folded x 5] := by
  have h4 := drop_presented (x := x) (len := len) 4 (by omega)
  have h5 := drop_presented (x := x) (len := len) 5 (by omega)
  have h6 : (presented x len).drop 6 = [] := List.drop_eq_nil_of_le (by rw [length_presented] <;> omega)
  exact h4.trans (congrArg _ (h5.trans (congrArg _ h6)))

/-- `GRID_CHK`'s test passes exactly for the locators of R105. -/
theorem gridOk_iff_locatorParse {grid : Field6} {len : BitVec 3} :
    gridOk grid len = true ↔ LocatorParse grid len := by
  rw [gridOk_iff]
  constructor
  · rintro ⟨⟨ha, hb, hc, hd⟩, hrest⟩
    have hpres := isPresented_iff.mpr ⟨by omega, (presented_eq_four (x := grid) (len := len) (by omega)).symm⟩
    refine ⟨_, _, _, _, _, hpres, ha, hb, hc, hd, ?_⟩
    rcases hrest with h4 | ⟨h6, hx, hy⟩
    · exact .inl (List.drop_eq_nil_of_le (by rw [length_presented] <;> omega))
    · exact .inr ⟨_, _, drop_four_presented h6, hx, hy⟩
  · rintro ⟨a, b, c, d, rest, hpres, ha, hb, hc, hd, hrest⟩
    obtain ⟨hlen, hu⟩ := isPresented_iff.mp hpres
    have hlength : rest.length + 4 = len.toNat := length_of_isPresented hpres
    rw [presented_eq_four (by omega)] at hu
    obtain ⟨rfl, rfl, rfl, rfl, hrest'⟩ : a = folded grid 0 ∧ b = folded grid 1 ∧ c = folded grid 2 ∧
      d = folded grid 3 ∧ rest = (presented grid len).drop 4 := by simpa using hu
    refine ⟨⟨ha, hb, hc, hd⟩, ?_⟩
    rcases hrest with rfl | ⟨x, y, rfl, hx, hy⟩
    · exact .inl hlength.symm
    · have h6 : len.toNat = 6 := hlength.symm
      rw [drop_four_presented h6] at hrest'
      obtain ⟨rfl, rfl⟩ : x = folded grid 4 ∧ y = folded grid 5 := by simpa using hrest'
      exact .inr ⟨h6, hx, hy⟩

/-- Settles O19: the locator form is exactly what the test accepts. -/
theorem gridChkAcceptsLocators : Obligations.GridChkAcceptsLocators :=
  ⟨rfl, fun _ h => exec_gridChk_next_iff.mpr (.inl ⟨gridOk_iff_locatorParse.mpr h, rfl⟩),
    fun _ h => exec_gridChk_next_iff.mpr (.inr ⟨Bool.eq_false_iff.mpr (h ∘ gridOk_iff_locatorParse.mp), rfl⟩)⟩

end Sys2Proof.Machine
end

section
/-! SUPPORT. The packings of `field_packer`: the power code, the two mixed-radix numbers with their bounds, and the
source word as the three fields side by side (spec/40_field_packer.md R106 to R111). -/

namespace Sys2Proof.Machine

/-! ### The power -/

theorem pwrOk_iff {dbm : Byte} : pwrOk dbm = true ↔ dbm.toInt ∈ pwrRom.map BitVec.toInt := by
  simp only [pwrOk, List.any_eq_true, decide_eq_true_eq, List.mem_map, eq_comm (a := dbm.toInt)]

/-- The signed values of the power table (R76). -/
theorem pwrRom_map_toInt :
    pwrRom.map BitVec.toInt =
      [-30, -27, -23, -20, -17, -13, -10, -7, -3, 0, 3, 7, 10, 13, 17, 20, 23, 27, 30, 33, 37, 40, 43, 47, 50, 53, 57,
        60] := by decide

theorem toInt_range_of_pwrOk {dbm : Byte} (h : pwrOk dbm = true) : -30 ≤ dbm.toInt ∧ dbm.toInt ≤ 60 := by
  have hrange : ∀ p ∈ pwrRom.map BitVec.toInt, -30 ≤ p ∧ p ≤ 60 := by decide
  exact hrange _ (pwrOk_iff.mp h)

/-- An allowed power plus 64 fits the 7 bits of `PW` (R110). -/
theorem powerCode_toNat {dbm : Byte} (h : pwrOk dbm = true) : ((powerCode dbm).toNat : Int) = dbm.toInt + 64 := by
  have hrange := toInt_range_of_pwrOk h
  rw [powerCode, BitVec.toNat_ofInt]
  omega

/-- Settles O20: membership in the power table, and the code with no wrap. -/
theorem pwrLookupAcceptsTheTwentyEightPowers : Obligations.PwrLookupAcceptsTheTwentyEightPowers := by
  refine ⟨rfl, fun s => ?_⟩
  rw [← pwrRom_map_toInt, ← pwrOk_iff]
  exact ⟨fun h => ⟨_, powerCode_toNat h, exec_pwrLookup_next_iff.mpr (.inl ⟨h, rfl⟩)⟩,
    fun h => exec_pwrLookup_next_iff.mpr (.inr ⟨Bool.eq_false_iff.mpr h, rfl⟩)⟩

/-! ### The characters' values -/

/-- A digit or a letter has a value below the space's (R73). -/
theorem exists_v37_of_isAlnum {c : Byte} (h : isDigit c = true ∨ isUpper c = true) : ∃ v ≤ 35, v37 c = some v := by
  cases hd : isDigit c with
  | true =>
    refine ⟨c.toNat - 0x30, ?_, by simp [v37, hd]⟩
    simp only [isDigit, Bool.and_eq_true, decide_eq_true_eq] at hd
    omega
  | false =>
    have hu : isUpper c = true := by simpa [hd] using h
    refine ⟨c.toNat - 0x41 + 10, ?_, by simp [v37, hd, hu]⟩
    simp only [isUpper, Bool.and_eq_true, decide_eq_true_eq] at hu
    omega

theorem exists_v10_of_isDigit {c : Byte} (h : isDigit c = true) : ∃ v, v10 c = some v := ⟨_, if_pos h⟩

/-- A letter has a value below the space's (R75). -/
theorem exists_v27_of_isUpper {c : Byte} (h : isUpper c = true) : ∃ v ≤ 25, v27 c = some v := by
  refine ⟨c.toNat - 0x41, ?_, if_pos h⟩
  simp only [isUpper, Bool.and_eq_true, decide_eq_true_eq] at h
  omega

theorem exists_v27_of_isUpper_or_space {c : Byte} (h : isUpper c = true ∨ c = 0x20) : ∃ v, v27 c = some v := by
  rcases h with h | rfl
  · obtain ⟨v, -, hv⟩ := exists_v27_of_isUpper h
    exact ⟨v, hv⟩
  · exact ⟨26, by decide⟩

theorem exists_vAR_of_isAtoR {c : Byte} (h : isAtoR c = true) : ∃ v, vAR c = some v := ⟨_, if_pos h⟩

/-! ### The packed callsign -/

/-- The six values of a normalised field and their bounds (R107). -/
theorem exists_values_of_normalShape {f : Field6} (h : NormalShape f) :
    ∃ v0 v1 v2 v3 v4 v5 : Nat,
      v37 f.c0 = some v0 ∧ v37 f.c1 = some v1 ∧ v10 f.c2 = some v2 ∧
      v27 f.c3 = some v3 ∧ v27 f.c4 = some v4 ∧ v27 f.c5 = some v5 ∧
      v0 ≤ 36 ∧ v1 ≤ 35 ∧ v2 ≤ 9 ∧ v3 ≤ 25 ∧ v4 ≤ 26 ∧ v5 ≤ 26 := by
  obtain ⟨h0, h1, h2, h3, h4, h5, -⟩ := h
  have hv0 : ∃ v, v37 f.c0 = some v := by
    rcases h0 with h0 | h0
    · exact ⟨36, by rw [h0]; decide⟩
    · obtain ⟨v, -, hv⟩ := exists_v37_of_isAlnum h0
      exact ⟨v, hv⟩
  obtain ⟨v0, hv0⟩ := hv0
  obtain ⟨v1, hle1, hv1⟩ := exists_v37_of_isAlnum h1
  obtain ⟨v2, hv2⟩ := exists_v10_of_isDigit h2
  obtain ⟨v3, hle3, hv3⟩ := exists_v27_of_isUpper h3
  obtain ⟨v4, hv4⟩ := exists_v27_of_isUpper_or_space h4
  obtain ⟨v5, hv5⟩ := exists_v27_of_isUpper_or_space h5
  exact ⟨v0, v1, v2, v3, v4, v5, hv0, hv1, hv2, hv3, hv4, hv5,
    v37_le hv0, hle1, v10_le hv2, hle3, v27_le hv4, v27_le hv5⟩

/-- The packed callsign exists where the six values do, and is their mixed-radix number (R107). -/
theorem packCall_eq_some_iff {f : Field6} {n : Nat} :
    packCall f = some n ↔
      ∃ v0 v1 v2 v3 v4 v5 : Nat,
        v37 f.c0 = some v0 ∧ v37 f.c1 = some v1 ∧ v10 f.c2 = some v2 ∧
        v27 f.c3 = some v3 ∧ v27 f.c4 = some v4 ∧ v27 f.c5 = some v5 ∧
        ((((v0 * 36 + v1) * 10 + v2) * 27 + v3) * 27 + v4) * 27 + v5 = n := by
  simp [packCall, Option.bind_eq_some_iff]

/-- Whatever the values, the number fits the 28 bits of `N1` (R110). -/
theorem n1Of_toNat {f : Field6} {n : Nat} (h : packCall f = some n) : (n1Of f).toNat = n := by
  obtain ⟨v0, v1, v2, v3, v4, v5, h0, h1, h2, h3, h4, h5, hn⟩ := packCall_eq_some_iff.mp h
  have := v37_le h0
  have := v37_le h1
  have := v10_le h2
  have := v27_le h3
  have := v27_le h4
  have := v27_le h5
  simp only [n1Of, h, BitVec.toNat_ofNat]
  omega

/-- A normalised field packs to a number in the range of R110. -/
theorem exists_packCall_of_normalShape {f : Field6} (h : NormalShape f) :
    ∃ n ≤ 262176830, packCall f = some n := by
  obtain ⟨v0, v1, v2, v3, v4, v5, h0, h1, h2, h3, h4, h5, hle0, hle1, hle2, hle3, hle4, hle5⟩ :=
    exists_values_of_normalShape h
  exact ⟨_, by omega, packCall_eq_some_iff.mpr ⟨v0, v1, v2, v3, v4, v5, h0, h1, h2, h3, h4, h5, rfl⟩⟩

/-- `N1` of a normalised field gives the field back: every digit of the number is below its radix (R111). -/
theorem n1Of_injective {f g : Field6} (hf : NormalShape f) (hg : NormalShape g) (h : n1Of f = n1Of g) : f = g := by
  obtain ⟨v0, v1, v2, v3, v4, v5, hv0, hv1, hv2, hv3, hv4, hv5, -, hv1', hv2', hv3', hv4', hv5'⟩ :=
    exists_values_of_normalShape hf
  obtain ⟨w0, w1, w2, w3, w4, w5, hw0, hw1, hw2, hw3, hw4, hw5, -, hw1', hw2', hw3', hw4', hw5'⟩ :=
    exists_values_of_normalShape hg
  have hfn := n1Of_toNat (packCall_eq_some_iff.mpr ⟨v0, v1, v2, v3, v4, v5, hv0, hv1, hv2, hv3, hv4, hv5, rfl⟩)
  have hgn := n1Of_toNat (packCall_eq_some_iff.mpr ⟨w0, w1, w2, w3, w4, w5, hw0, hw1, hw2, hw3, hw4, hw5, rfl⟩)
  rw [h, hgn] at hfn
  obtain ⟨rfl, rfl, rfl, rfl, rfl, rfl⟩ : w0 = v0 ∧ w1 = v1 ∧ w2 = v2 ∧ w3 = v3 ∧ w4 = v4 ∧ w5 = v5 := by omega
  cases f
  cases g
  rw [Field6.mk.injEq]
  exact ⟨v37_injective hv0 hw0, v37_injective hv1 hw1, v10_injective hv2 hw2, v27_injective hv3 hw3,
    v27_injective hv4 hw4, v27_injective hv5 hw5⟩

/-- Settles O21: the shape of the field gives the values, and the bounds of the values keep the number within `N1`. -/
theorem callPackIsTheMixedRadixNumber : Obligations.CallPackIsTheMixedRadixNumber := by
  refine ⟨rfl, fun s t h hph => ?_, fun s v0 v1 v2 v3 v4 v5 h0 h1 h2 h3 h4 h5 => ?_⟩
  · obtain ⟨v0, v1, v2, v3, v4, v5, h0, h1, h2, h3, h4, h5, hle0, hle1, hle2, hle3, hle4, hle5⟩ :=
      exists_values_of_normalShape (normalisedFieldHasItsShape s t h hph)
    exact ⟨v0, v1, v2, v3, v4, v5, h0, h1, h2, h3, h4, h5, hle0, hle1, hle2, hle3, hle4, hle5, by omega⟩
  · exact ⟨_, n1Of_toNat (packCall_eq_some_iff.mpr ⟨v0, v1, v2, v3, v4, v5, h0, h1, h2, h3, h4, h5, rfl⟩),
      exec_callPack_next_iff.mpr rfl⟩

/-! ### The packed locator -/

/-- Folding leaves the digits of an accepted locator alone. -/
theorem up_digits_of_gridOk {grid : Field6} {len : BitVec 3} (h : gridOk grid len = true) :
    up grid.c2 = grid.c2 ∧ up grid.c3 = grid.c3 := by
  obtain ⟨⟨-, -, h2, h3⟩, -⟩ := gridOk_iff.mp h
  exact ⟨up_of_isDigit _ h2, up_of_isDigit _ h3⟩

/-- The four values of an accepted locator and their bounds; a digit is read unfolded (R108). -/
theorem exists_values_of_gridOk {grid : Field6} {len : BitVec 3} (h : gridOk grid len = true) :
    ∃ g0 g1 g2 g3 : Nat,
      vAR (up grid.c0) = some g0 ∧ vAR (up grid.c1) = some g1 ∧
      v10 grid.c2 = some g2 ∧ v10 grid.c3 = some g3 ∧ g0 ≤ 17 ∧ g1 ≤ 17 ∧ g2 ≤ 9 ∧ g3 ≤ 9 := by
  obtain ⟨⟨h0, h1, h2, h3⟩, -⟩ := gridOk_iff.mp h
  obtain ⟨hup2, hup3⟩ := up_digits_of_gridOk h
  obtain ⟨g0, h0⟩ := exists_vAR_of_isAtoR h0
  obtain ⟨g1, h1⟩ := exists_vAR_of_isAtoR h1
  obtain ⟨g2, h2⟩ := exists_v10_of_isDigit h2
  obtain ⟨g3, h3⟩ := exists_v10_of_isDigit h3
  exact ⟨g0, g1, g2, g3, h0, h1, hup2 ▸ h2, hup3 ▸ h3, vAR_le h0, vAR_le h1, v10_le h2, v10_le h3⟩

/-- The packed locator exists where the four values do (R108). -/
theorem packGrid_eq_some_iff {grid : Field6} {n : Nat} :
    packGrid grid = some n ↔
      ∃ g0 g1 g2 g3 : Nat,
        vAR (up grid.c0) = some g0 ∧ vAR (up grid.c1) = some g1 ∧
        v10 grid.c2 = some g2 ∧ v10 grid.c3 = some g3 ∧
        (179 - 10 * g0 - g2) * 180 + 10 * g1 + g3 = n := by
  simp [packGrid, Option.bind_eq_some_iff]

theorem packGrid_le {grid : Field6} {n : Nat} (h : packGrid grid = some n) : n ≤ 32399 := by
  obtain ⟨g0, g1, g2, g3, h0, h1, h2, h3, rfl⟩ := packGrid_eq_some_iff.mp h
  have := vAR_le h1
  have := v10_le h3
  omega

/-- The number fits the 15 bits of `M` (R110). -/
theorem mOf_toNat {grid : Field6} {n : Nat} (h : packGrid grid = some n) : (mOf grid).toNat = n := by
  have hle := packGrid_le h
  simp only [mOf, h, BitVec.toNat_ofNat]
  omega

theorem exists_packGrid_of_gridOk {grid : Field6} {len : BitVec 3} (h : gridOk grid len = true) :
    ∃ n, packGrid grid = some n := by
  obtain ⟨g0, g1, g2, g3, h0, h1, h2, h3, -⟩ := exists_values_of_gridOk h
  exact ⟨_, packGrid_eq_some_iff.mpr ⟨g0, g1, g2, g3, h0, h1, h2, h3, rfl⟩⟩

/-- Settles O22: the subtraction never goes below zero, so the number is the integer's. -/
theorem gridPackIsTheInvertedLocator : Obligations.GridPackIsTheInvertedLocator := by
  refine ⟨rfl, fun s t h hph => ?_, fun s g0 g1 g2 g3 h0 h1 h2 h3 => ?_⟩
  · rcases exec_gridChk_next_iff.mp h with ⟨hok, -⟩ | ⟨-, rfl⟩
    · exact exists_values_of_gridOk hok
    · rw [State.raise_ph] at hph
      exact absurd hph (by decide)
  · have hpack := packGrid_eq_some_iff.mpr ⟨g0, g1, g2, g3, h0, h1, h2, h3, rfl⟩
    have hle0 := vAR_le h0
    have hle2 := v10_le h2
    refine ⟨mOf s.latch.grid, ?_, ?_, exec_gridPack_next_iff.mpr rfl⟩
    · rw [mOf_toNat hpack]
      omega
    · rw [mOf_toNat hpack]
      exact packGrid_le hpack

/-- `M` of an accepted locator gives its first four characters back, the letters folded (R111). -/
theorem chars_eq_of_mOf_eq {a b : Field6} {la lb : BitVec 3} (ha : gridOk a la = true) (hb : gridOk b lb = true)
    (h : mOf a = mOf b) : up a.c0 = up b.c0 ∧ up a.c1 = up b.c1 ∧ a.c2 = b.c2 ∧ a.c3 = b.c3 := by
  obtain ⟨g0, g1, g2, g3, hg0, hg1, hg2, hg3, hg0', hg1', hg2', hg3'⟩ := exists_values_of_gridOk ha
  obtain ⟨k0, k1, k2, k3, hk0, hk1, hk2, hk3, hk0', hk1', hk2', hk3'⟩ := exists_values_of_gridOk hb
  have hm := mOf_toNat (packGrid_eq_some_iff.mpr ⟨g0, g1, g2, g3, hg0, hg1, hg2, hg3, rfl⟩)
  rw [h, mOf_toNat (packGrid_eq_some_iff.mpr ⟨k0, k1, k2, k3, hk0, hk1, hk2, hk3, rfl⟩)] at hm
  obtain ⟨rfl, rfl, rfl, rfl⟩ : k0 = g0 ∧ k1 = g1 ∧ k2 = g2 ∧ k3 = g3 := by omega
  exact ⟨vAR_injective hg0 hk0, vAR_injective hg1 hk1, v10_injective hg2 hk2, v10_injective hg3 hk3⟩

/-- `M` of two accepted locators is the same exactly when their first four characters are, up to case (R111). -/
theorem mOf_eq_iff {a b : Field6} {la lb : BitVec 3} (ha : gridOk a la = true) (hb : gridOk b lb = true) :
    mOf a = mOf b ↔ ((charList a).take 4).map up = ((charList b).take 4).map up := by
  obtain ⟨ha2, ha3⟩ := up_digits_of_gridOk ha
  obtain ⟨hb2, hb3⟩ := up_digits_of_gridOk hb
  have hchars : ((charList a).take 4).map up = ((charList b).take 4).map up ↔
      up a.c0 = up b.c0 ∧ up a.c1 = up b.c1 ∧ a.c2 = b.c2 ∧ a.c3 = b.c3 := by
    simp [charList, ha2, ha3, hb2, hb3]
  rw [hchars]
  refine ⟨chars_eq_of_mOf_eq ha hb, fun ⟨h0, h1, h2, h3⟩ => ?_⟩
  have hpack : packGrid a = packGrid b := by simp only [packGrid, h0, h1, h2, h3]
  obtain ⟨n, hn⟩ := exists_packGrid_of_gridOk ha
  exact BitVec.eq_of_toNat_eq ((mOf_toNat hn).trans (mOf_toNat (hpack ▸ hn)).symm)

/-- Settles O23: each packing has one outcome, with or without values. -/
theorem packingAlwaysCompletes : Obligations.PackingAlwaysCompletes :=
  ⟨fun s => ⟨n1Of s.f, exec_callPack_next_iff.mpr rfl⟩, fun s => ⟨mOf s.latch.grid, exec_gridPack_next_iff.mpr rfl⟩⟩

/-! ### The source word -/

/-- Two words put side by side as a number. -/
theorem bitVec_toNat_append {m n : Nat} (a : BitVec m) (b : BitVec n) :
    (a ++ b).toNat = a.toNat * 2 ^ n + b.toNat := by
  rw [BitVec.toNat_append, ← Nat.shiftLeft_add_eq_or_of_lt b.isLt, Nat.shiftLeft_eq]

/-- The source word is its three fields side by side (R109). -/
theorem sourceWord_eq_append (n1 : BitVec 28) (m : BitVec 15) (pw : BitVec 7) :
    sourceWord n1 m pw = n1 ++ (m ++ pw) := by
  apply BitVec.eq_of_toNat_eq
  rw [bitVec_toNat_append, bitVec_toNat_append, sourceWord_eq, BitVec.toNat_ofNat]
  omega

theorem sourceWord_fields (n1 : BitVec 28) (m : BitVec 15) (pw : BitVec 7) :
    (sourceWord n1 m pw).extractLsb' 22 28 = n1 ∧ (sourceWord n1 m pw).extractLsb' 7 15 = m ∧
      (sourceWord n1 m pw).extractLsb' 0 7 = pw := by
  rw [sourceWord_eq_append]
  simp (disch := decide) only [BitVec.extractLsb'_append_eq_of_add_le, BitVec.extractLsb'_append_eq_left,
    BitVec.extractLsb'_eq_self, and_self]

/-- Settles O24: the sum does not exceed 50 bits, and each field is a slice of the three side by side. -/
theorem assemblePlacesTheThreeFields : Obligations.AssemblePlacesTheThreeFields := by
  refine ⟨rfl, fun s => ⟨sourceWord s.n1 s.m s.pw, exec_assemble_next_iff.mpr rfl, ?_, sourceWord_fields ..⟩⟩
  rw [sourceWord_eq, BitVec.toNat_ofNat]
  omega

/-- An accepted request passes the three tests, and its word is assembled from its three packed fields (R100). -/
theorem of_pack_eq_ok {q : Req} {n : BitVec 50} (h : pack q = .ok n) :
    callOk q.call q.callLen = true ∧ gridOk q.grid q.gridLen = true ∧ pwrOk q.dbm = true ∧
      n = sourceWord (n1Of (normalise q.call q.callLen)) (mOf q.grid) (powerCode q.dbm) := by
  unfold pack at h
  split_ifs at h with hcall hgrid hpwr
  rw [Bool.not_eq_false] at hcall hgrid hpwr
  cases h
  exact ⟨hcall, hgrid, hpwr, (sourceWord_eq ..).symm⟩

/-- Settles O25: each slice is the field packed, and each packing has its range. -/
theorem packedFieldsStayInRange : Obligations.PackedFieldsStayInRange := by
  intro q n h
  obtain ⟨hcall, hgrid, hpwr, rfl⟩ := of_pack_eq_ok h
  obtain ⟨hn1, hm, hpw⟩ := sourceWord_fields (n1Of (normalise q.call q.callLen)) (mOf q.grid) (powerCode q.dbm)
  rw [hn1, hm, hpw]
  obtain ⟨c, hc, hpackCall⟩ := exists_packCall_of_normalShape (normalise_shape hcall)
  obtain ⟨g, hpackGrid⟩ := exists_packGrid_of_gridOk hgrid
  have hrange := toInt_range_of_pwrOk hpwr
  have hcode := powerCode_toNat hpwr
  rw [n1Of_toNat hpackCall, mOf_toNat hpackGrid]
  exact ⟨hc, packGrid_le hpackGrid, by omega, by omega⟩

theorem powerCode_injective {a b : Byte} (ha : pwrOk a = true) (hb : pwrOk b = true)
    (h : powerCode a = powerCode b) : a = b := by
  have hca := powerCode_toNat ha
  have hcb := powerCode_toNat hb
  rw [h] at hca
  exact BitVec.eq_of_toInt_eq (by omega)

theorem sourceWord_inj {n1 n1' : BitVec 28} {m m' : BitVec 15} {pw pw' : BitVec 7} :
    sourceWord n1 m pw = sourceWord n1' m' pw' ↔ n1 = n1' ∧ m = m' ∧ pw = pw' := by
  rw [sourceWord_eq_append, sourceWord_eq_append, bitVec_append_inj, bitVec_append_inj]

/-- Settles O26: the word is its three fields, and each field gives back what was packed into it. -/
theorem sourceWordDecomposesUniquely : Obligations.SourceWordDecomposesUniquely := by
  intro q q' n n' h h'
  obtain ⟨hcall, hgrid, hpwr, rfl⟩ := of_pack_eq_ok h
  obtain ⟨hcall', hgrid', hpwr', rfl⟩ := of_pack_eq_ok h'
  rw [sourceWord_inj, mOf_eq_iff hgrid hgrid']
  constructor
  · rintro ⟨hn1, hm, hpw⟩
    exact ⟨n1Of_injective (normalise_shape hcall) (normalise_shape hcall') hn1, hm, powerCode_injective hpwr hpwr' hpw⟩
  · rintro ⟨hf, hm, hdbm⟩
    exact ⟨congrArg n1Of hf, hm, congrArg powerCode hdbm⟩

end Sys2Proof.Machine
end

section
/-! SUPPORT. The encoder family: parity as an XOR over positions and as a count, one `CONV_STEP`, and the stage of 81 steps
as an induction whose invariant is the coded stream of `codeBit` (spec/41_conv_encoder.md R141 to R148). -/

namespace Sys2Proof.Machine

/-! ### Parity -/

/-- An XOR over a list is the number of its true entries mod 2. -/
theorem foldl_xor_eq_countP (f : Nat → Bool) (l : List Nat) (a : Bool) :
    l.foldl (fun a t => a ^^ f t) a = (a ^^ decide (l.countP f % 2 = 1)) := by
  induction l generalizing a with
  | nil => simp
  | cons t l ih =>
    rw [List.foldl_cons, ih, List.countP_cons, Bool.xor_assoc]
    congr 1
    rcases Nat.mod_two_eq_zero_or_one (l.countP f) with h | h <;> cases f t <;> simp [Nat.add_mod, h]

/-- An XOR over a list splits over XOR. -/
theorem foldl_xor_xor (f g : Nat → Bool) (l : List Nat) (a b : Bool) :
    l.foldl (fun a t => a ^^ (f t ^^ g t)) (a ^^ b) =
      (l.foldl (fun a t => a ^^ f t) a ^^ l.foldl (fun a t => a ^^ g t) b) := by
  induction l generalizing a b with
  | nil => rfl
  | cons t l ih =>
    rw [List.foldl_cons, List.foldl_cons, List.foldl_cons, ← ih]
    simp only [Bool.xor_assoc, Bool.xor_left_comm]

/-- Settles O28: `parity` is written as the XOR, and an XOR counts the true entries mod 2. -/
theorem parityCountsTheOneBits : Obligations.ParityCountsTheOneBits := by
  intro v
  refine ⟨rfl, ?_⟩
  rw [parity, foldl_xor_eq_countP, Bool.false_xor]

theorem parity_and_G0 (v : BitVec 32) : parity (v &&& G0) = xorAt v tapsG0 := parity_and v G0 (by decide)

theorem parity_and_G1 (v : BitVec 32) : parity (v &&& G1) = xorAt v tapsG1 := parity_and v G1 (by decide)

/-! ### One step -/

theorem getLsbD_shiftIn_zero (r : BitVec 32) (b : Bool) : (shiftIn r b).getLsbD 0 = b := by
  rw [getLsbD_shiftIn]
  rfl

theorem getLsbD_shiftIn_succ (r : BitVec 32) (b : Bool) {t : Nat} (h : t < 31) :
    (shiftIn r b).getLsbD (t + 1) = r.getLsbD t := by
  rw [getLsbD_shiftIn, decide_eq_true (Nat.succ_lt_succ h), Bool.true_and, if_neg (Nat.succ_ne_zero t),
    Nat.add_sub_cancel]

/-- Settles O29: the register after the shift is `shiftIn`, and the buffer is that of the two writes. -/
theorem convStepShiftsAndWritesTwoParities : Obligations.ConvStepShiftsAndWritesTwoParities := by
  intro s k hk
  have hexec := exec_convStep_of_le hk s
  rw [parity_and_G0, parity_and_G1] at hexec
  have hnew := getLsbD_shiftIn_zero s.r (inputBit s.n k.toNat)
  have hold := fun t => getLsbD_shiftIn_succ s.r (inputBit s.n k.toNat) (t := t)
  generalize shiftIn s.r (inputBit s.n k.toNat) = rn at hexec hnew hold
  refine ⟨decodeSequencer_conv hk, rn,
    bufWrite (bufWrite s.mem.cbuf (2 * k.toNat) (.ofBool (xorAt rn tapsG0))) (2 * k.toNat + 1)
      (.ofBool (xorAt rn tapsG1)),
    hnew, hold, ?_, bufRead_bufWrite_same .., ?_, ?_, ?_⟩
  · rw [bufRead_bufWrite_other _ _ (Nat.ne_of_lt (Nat.lt_succ_self _)), bufRead_bufWrite_same]
  · intro j h0 h1
    rw [bufRead_bufWrite_other _ _ h1, bufRead_bufWrite_other _ _ h0]
  · intro hne
    rw [hexec, State.advance_of_ne _ _ hne]
    rfl
  · rintro rfl
    rw [hexec, State.advance_last]
    rfl

/-! ### The stage -/

/-- The state `t` is where the first `j` steps of `CONV` take a state `s` with `R` = 0. -/
structure State.CodedTo (s t : State) (j : Nat) : Prop where
  n : t.n = s.n
  dbuf : t.mem.dbuf = s.mem.dbuf
  ybuf : t.mem.ybuf = s.mem.ybuf
  r : t.r = if j = 0 then 0 else window s.n (j - 1)
  cbuf : holdsUpTo t.mem.cbuf (2 * j) (codeBit s.n)
  last : j = 81 → t.ph = 3 ∧ t.k = 0 ∧ t.p = 0

theorem State.CodedTo.zero {s : State} (h : s.r = 0) : s.CodedTo s 0 :=
  ⟨rfl, rfl, rfl, h, fun i hi => absurd hi (Nat.not_lt_zero i), fun h => absurd h (by decide)⟩

/-- One `CONV_STEP` codes one input bit more. -/
theorem State.CodedTo.convStep {s t : State} {k : Byte} (h : s.CodedTo t k.toNat) (hk : k.toNat ≤ 80) :
    ∃ u, exec (.convStep k) t = .next u ∧ s.CodedTo u (k.toNat + 1) := by
  have hshift : shiftIn t.r (inputBit t.n k.toNat) = window s.n k.toNat := h.n ▸ shiftIn_window s.n h.r
  refine ⟨_, exec_convStep_of_le hk t, ?_⟩
  rw [hshift]
  constructor
  case n => rw [State.advance_n, h.n]
  case dbuf => rw [State.advance_mem, h.dbuf]
  case ybuf => rw [State.advance_mem, h.ybuf]
  case r => rw [State.advance_r _ _ _ (by decide), if_neg (Nat.succ_ne_zero _), Nat.add_sub_cancel]
  case cbuf =>
    rw [State.advance_mem]
    exact holdsUpTo_conv h.cbuf
  case last =>
    intro hlast
    obtain rfl : k = 80 := BitVec.eq_of_toNat_eq (by simp; omega)
    rw [State.advance_last]
    exact ⟨rfl, rfl, rfl⟩

/-- The first `j` operations of the stage code the first `j` input bits. -/
theorem runOps_convStep_codedTo {s : State} (hr : s.r = 0) {j : Nat} (hj : j ≤ 81) :
    ∃ t, runOps ((List.range j).map fun k => .convStep (BitVec.ofNat 8 k)) s = .next t ∧ s.CodedTo t j := by
  induction j with
  | zero => exact ⟨s, rfl, .zero hr⟩
  | succ j ih =>
    obtain ⟨t, hrun, ht⟩ := ih (by omega)
    have hk : (BitVec.ofNat 8 j).toNat = j := by rw [BitVec.toNat_ofNat]; omega
    obtain ⟨u, hstep, hu⟩ := State.CodedTo.convStep (hk.symm ▸ ht) (by omega)
    rw [hk] at hu
    refine ⟨u, ?_, hu⟩
    rw [List.range_succ, List.map_append, runOps_append hrun]
    exact runOps_cons_of_next hstep

/-- The whole stage goes on, and codes the source word. -/
theorem runOps_convOps {s : State} (hr : s.r = 0) : ∃ t, runOps convOps s = .next t ∧ s.CodedTo t 81 :=
  runOps_convStep_codedTo hr (Nat.le_refl 81)

/-- What the whole stage leaves in `CBUF` is the coded stream. -/
theorem holdsUpTo_of_runOps_convOps {s t : State} (hr : s.r = 0) (h : runOps convOps s = .next t) :
    holdsUpTo t.mem.cbuf 162 (codeBit s.n) := by
  obtain ⟨u, hu, hcoded⟩ := runOps_convOps hr
  cases h.symm.trans hu
  exact hcoded.cbuf

/-- The XOR of the register after step `k` over its positions is the closed form (R147). -/
theorem xorAt_window {taps : List Nat} (h : ∀ t ∈ taps, t < 32) (n : BitVec 50) (k : Nat) :
    xorAt (window n k) taps = tapSum taps n k := by
  refine List.foldl_ext _ _ _ fun a t ht => ?_
  rw [getLsbD_window, decide_eq_true (h t ht), Bool.true_and]

theorem codeBit_even_eq_tapSum (n : BitVec 50) (k : Nat) : codeBit n (2 * k) = BitVec.ofBool (tapSum tapsG0 n k) := by
  rw [codeBit_even, parity_and_G0, xorAt_window (by decide)]

theorem codeBit_odd_eq_tapSum (n : BitVec 50) (k : Nat) :
    codeBit n (2 * k + 1) = BitVec.ofBool (tapSum tapsG1 n k) := by
  rw [codeBit_odd, parity_and_G1, xorAt_window (by decide)]

/-- Bit 31 of the register after the last step is the last message bit (R148). -/
theorem window_80_toNat (n : BitVec 50) : (window n 80).toNat = if n.getLsbD 0 then 2 ^ 31 else 0 := by
  have h31 : (window n 80).getLsbD 31 = n.getLsbD 0 := by rw [getLsbD_window]; rfl
  rw [← h31]
  rcases window_80 n with h | h <;> rw [h] <;> decide

/-- Settles O30: the induction over the 81 steps, and the coded stream in its closed form. -/
theorem convStageWritesTheTapSums : Obligations.ConvStageWritesTheTapSums := by
  intro s hr
  obtain ⟨t, hrun, ht⟩ := runOps_convOps hr
  obtain ⟨hph, hk, hp⟩ := ht.last rfl
  refine ⟨t, hrun, hph, hk, hp, ?_, ht.dbuf, ht.ybuf, ht.n, fun k hk => ⟨?_, ?_⟩⟩
  · rw [ht.r]
    exact window_80_toNat s.n
  · rw [← codeBit_even_eq_tapSum]
    exact ht.cbuf _ (by omega)
  · rw [← codeBit_odd_eq_tapSum]
    exact ht.cbuf _ (by omega)

/-! ### Linearity, and the leftover of the message before -/

theorem inputBit_xor (n n' : BitVec 50) (k : Nat) : inputBit (n ^^^ n') k = (inputBit n k ^^ inputBit n' k) := by
  unfold inputBit
  split
  · exact BitVec.getLsbD_xor
  · rfl

theorem tapSum_xor (taps : List Nat) (n n' : BitVec 50) (k : Nat) :
    tapSum taps (n ^^^ n') k = (tapSum taps n k ^^ tapSum taps n' k) := by
  simp only [tapSum, inputBit_xor, Bool.and_xor_distrib_left]
  exact foldl_xor_xor _ _ _ false false

/-- The coded stream is linear over GF(2) (R147). -/
theorem codeBit_xor (n n' : BitVec 50) (i : Nat) : codeBit (n ^^^ n') i = codeBit n i ^^^ codeBit n' i := by
  obtain ⟨k, rfl | rfl⟩ := i.even_or_odd'
  · simp only [codeBit_even_eq_tapSum, tapSum_xor, BitVec.ofBool_xor_ofBool]
  · simp only [codeBit_odd_eq_tapSum, tapSum_xor, BitVec.ofBool_xor_ofBool]

/-- Settles O31: each run leaves the coded stream of its word, and the coded stream is linear. -/
theorem convStageIsLinear : Obligations.ConvStageIsLinear := by
  intro s s' u t t' v hs hs' hu hn ht ht' hv j hj
  refine ⟨_, _, holdsUpTo_of_runOps_convOps hs ht j hj, holdsUpTo_of_runOps_convOps hs' ht' j hj, ?_⟩
  rw [← codeBit_xor, ← hn]
  exact holdsUpTo_of_runOps_convOps hu hv j hj

/-- A shift drops the leftover, which is bit 31 (R148). -/
theorem shiftIn_leftover (b : Bool) : shiftIn 0x80000000 b = shiftIn 0 b := by revert b; decide

/-- A `CONV_STEP` answers the same state from the leftover as from `R` = 0. -/
theorem exec_convStep_leftover {k : Byte} (hk : k.toNat ≤ 80) {s : State} (hr : s.r = 0) :
    exec (.convStep k) { s with r := 0x80000000 } = exec (.convStep k) s := by
  rw [exec_convStep_of_le hk, exec_convStep_of_le hk, hr, shiftIn_leftover]

/-- A run depends on its state through its first operation alone. -/
theorem runOps_cons_congr {i : Instr} {rest : List Instr} {s s' : State} (h : exec i s = exec i s') :
    runOps (i :: rest) s = runOps (i :: rest) s' := by
  rw [runOps, runOps, h]

theorem runOps_convOps_leftover {s : State} (hr : s.r = 0) :
    runOps convOps { s with r := 0x80000000 } = runOps convOps s := by
  rw [convOps, List.range_succ_eq_map, List.map_cons]
  exact runOps_cons_congr (exec_convStep_leftover (by decide) hr)

/-- Settles O32: the two runs are one after their first step. -/
theorem leftoverRegisterChangesNoCodeBit : Obligations.LeftoverRegisterChangesNoCodeBit := by
  intro s t u hr ht hu j _
  rw [runOps_convOps_leftover hr] at hu
  cases ht.symm.trans hu
  rfl

end Sys2Proof.Machine
end

section
/-! SUPPORT. The interleaver family: `rev8`, one `ILV_STEP`, the permutation table as a list, and the stage of 256 steps
as an induction whose invariant is the permutation up to the running count `P` (spec/42_interleaver.md R160 to R163). -/

namespace Sys2Proof.Machine

/-! ### The reversed index -/

/-- `rev8` reads its operand's bits in the opposite order (R160). -/
theorem getLsbD_rev8 (v : Byte) {b : Nat} (h : b < 8) : (rev8 v).getLsbD b = v.getLsbD (7 - b) := by
  simp only [rev8, BitVec.getLsbD_append]
  interval_cases b <;> simp

/-- Settles O33: bit by bit, and the involution. -/
theorem rev8ReversesTheBits : Obligations.Rev8ReversesTheBits :=
  fun v => ⟨fun _ hb => getLsbD_rev8 v hb, rev8_rev8 v⟩

/-- The index `j` is reached at `K` = `rev8(j)` (R162). -/
theorem ilvIndex_rev8 (v : Byte) : ilvIndex (rev8 v) = v.toNat := by rw [ilvIndex, rev8_rev8]

/-! ### One step -/

/-- Settles O34: a step with a copy, a skip, and the last step, which is a skip. -/
theorem ilvStepCopiesOrSkips : Obligations.IlvStepCopiesOrSkips := by
  refine ⟨fun s k c hk hp hc => ?_, fun s k hk hne => ?_, fun s hp => ?_⟩
  · have hne : k ≠ 255 := ne_255_of_ilvIndex_lt hk
    refine ⟨hne, bufWrite s.mem.dbuf (rev8 k).toNat c, bufRead_bufWrite_same .., fun j hj =>
      bufRead_bufWrite_other _ _ hj, ?_⟩
    rw [exec_ilvStep_copy hk hp hc, ilvEnd_of_ne hne]
    rfl
  · rw [exec_ilvStep_skip (Nat.not_lt.mpr hk), ilvEnd_of_ne hne]
    rfl
  · rw [exec_ilvStep_skip (by decide), ilvEnd_last hp]
    rfl

/-! ### The permutation table -/

/-- The table's entries are the indices below 162: `j` is the entry made at `K` = `rev8(j)` (R163). -/
theorem mem_permTable_iff {j : Nat} : j ∈ permTable ↔ j < 162 := by
  unfold permTable
  rw [List.mem_filter, decide_eq_true_iff, and_iff_right_iff_imp]
  intro hj
  refine List.mem_map.mpr ⟨(rev8 (BitVec.ofNat 8 j)).toNat, List.mem_range.mpr (BitVec.isLt _), ?_⟩
  rw [BitVec.ofNat_toNat, BitVec.setWidth_eq, ilvIndex_rev8, BitVec.toNat_ofNat]
  omega

theorem permTable_perm_range : permTable.Perm (List.range 162) :=
  (List.perm_ext_iff_of_nodup permTable_nodup List.nodup_range).mpr fun _ => mem_permTable_iff.trans List.mem_range.symm

theorem length_permTable : permTable.length = 162 := permTable_perm_range.length_eq.trans List.length_range

/-! ### The stage -/

/-- The state `t` is where the first `j` steps of `ILV` take a state `s` with `P` = 0: `P` counts the copies, and that
many entries of the permutation are written. -/
structure State.PermutedTo (s t : State) (j : Nat) : Prop where
  cbuf : t.mem.cbuf = s.mem.cbuf
  ybuf : t.mem.ybuf = s.mem.ybuf
  count : t.p.toNat = copiesBefore j
  dbuf : ∀ p (hp : p < permTable.length), p < copiesBefore j →
    bufRead t.mem.dbuf permTable[p] = bufRead s.mem.cbuf p

theorem State.PermutedTo.zero {s : State} (h : s.p = 0) : s.PermutedTo s 0 :=
  ⟨rfl, rfl, congrArg BitVec.toNat h, fun p _ hp => absurd hp (Nat.not_lt_zero p)⟩

/-- A skipped index adds nothing. -/
theorem State.PermutedTo.skip {s t : State} {j : Nat} (h : s.PermutedTo t j)
    (hj : ¬ ilvIndex (BitVec.ofNat 8 j) < 162) : s.PermutedTo t (j + 1) := by
  have hcount : copiesBefore (j + 1) = copiesBefore j := by rw [copiesBefore_succ, if_neg hj, Nat.add_zero]
  exact ⟨h.cbuf, h.ybuf, hcount ▸ h.count, hcount ▸ h.dbuf⟩

/-- A copy adds entry `P` of the permutation; the entries before it are other elements. -/
theorem State.PermutedTo.copy {s t : State} {j : Nat} {c : BitVec 1} (h : s.PermutedTo t j) (hj : j < 256)
    (hi : ilvIndex (BitVec.ofNat 8 j) < 162) (hc : bufRead s.mem.cbuf (copiesBefore j) = some c) :
    s.PermutedTo
      { t with mem := { t.mem with dbuf := bufWrite t.mem.dbuf (ilvIndex (BitVec.ofNat 8 j)) c }, p := t.p + 1 }
      (j + 1) := by
  have hcount : copiesBefore (j + 1) = copiesBefore j + 1 := by rw [copiesBefore_succ, if_pos hi]
  obtain ⟨hlast, hentry⟩ := List.getElem?_eq_some_iff.mp (permTable_copiesBefore hj hi)
  constructor
  case cbuf => exact h.cbuf
  case ybuf => exact h.ybuf
  case count => rw [hcount, ← h.count, toNat_succ_of_lt (h.count ▸ copiesBefore_lt hj hi) (by decide)]
  case dbuf =>
    intro p hp hlt
    simp only [← hentry, bufRead_bufWrite, permTable_nodup.getElem_inj_iff]
    split
    · next heq => rw [heq, hc]
    · next hne => exact h.dbuf p hp (by omega)

/-- The end of a step goes on after the copies of the steps so far, at `K` = 255 because they are 162 (R162). -/
theorem State.PermutedTo.ilvEnd_next {s t : State} {k : Byte} (h : s.PermutedTo t (k.toNat + 1)) :
    ilvEnd k t = .next (t.advance k 255 .merge) := by
  refine ilvEnd_next_iff.mpr ⟨?_, rfl⟩
  rintro rfl
  exact BitVec.eq_of_toNat_eq (h.count.trans copiesBefore_256)

theorem State.PermutedTo.advance {s t : State} {j : Nat} (h : s.PermutedTo t j) (k : Byte) :
    s.PermutedTo (t.advance k 255 .merge) j := by
  obtain ⟨hcbuf, hybuf, hcount, hdbuf⟩ := h
  constructor
  case count => rwa [State.advance_p _ _ _ (by decide)]
  all_goals rwa [State.advance_mem]

/-- One `ILV_STEP` makes its copy or skip, and advances. -/
theorem State.PermutedTo.ilvStep {s t : State} {k : Byte} (h : s.PermutedTo t k.toNat)
    (hfull : ∀ j < 162, bufRead s.mem.cbuf j ≠ none) :
    ∃ u, exec (.ilvStep k) t = .next (u.advance k 255 .merge) ∧ s.PermutedTo u (k.toNat + 1) := by
  have hk : BitVec.ofNat 8 k.toNat = k := by rw [BitVec.ofNat_toNat, BitVec.setWidth_eq]
  by_cases hi : ilvIndex k < 162
  · have hi' : ilvIndex (BitVec.ofNat 8 k.toNat) < 162 := hk.symm ▸ hi
    have hlt := copiesBefore_lt k.isLt hi'
    obtain ⟨c, hc⟩ := Option.ne_none_iff_exists'.mp (hfull _ hlt)
    have hu := h.copy k.isLt hi' hc
    rw [hk] at hu
    rw [← h.count, ← h.cbuf] at hc
    exact ⟨_, (exec_ilvStep_copy hi (h.count ▸ hlt) hc).trans hu.ilvEnd_next, hu⟩
  · have hu := h.skip (hk.symm ▸ hi)
    exact ⟨t, (exec_ilvStep_skip hi t).trans hu.ilvEnd_next, hu⟩

/-- The first `j` operations of the stage go on, and write their entries of the permutation. -/
theorem runOps_ilvStep_permutedTo {s : State} (hp : s.p = 0) (hfull : ∀ j < 162, bufRead s.mem.cbuf j ≠ none)
    {j : Nat} (hj : j ≤ 256) :
    ∃ t, runOps ((List.range j).map fun k => .ilvStep (BitVec.ofNat 8 k)) s = .next t ∧ s.PermutedTo t j := by
  induction j with
  | zero => exact ⟨s, rfl, .zero hp⟩
  | succ j ih =>
    obtain ⟨t, hrun, ht⟩ := ih (by omega)
    have hk : (BitVec.ofNat 8 j).toNat = j := by rw [BitVec.toNat_ofNat]; omega
    obtain ⟨u, hstep, hu⟩ := (hk.symm ▸ ht : s.PermutedTo t (BitVec.ofNat 8 j).toNat).ilvStep hfull
    rw [hk] at hu
    refine ⟨_, ?_, hu.advance (BitVec.ofNat 8 j)⟩
    rw [List.range_succ, List.map_append, runOps_append hrun]
    exact runOps_cons_of_next hstep

/-- The whole stage writes the permutation, and its last step enters `MERGE` (R162). -/
theorem runOps_ilvOps {s : State} (hp : s.p = 0) (hfull : ∀ j < 162, bufRead s.mem.cbuf j ≠ none) :
    ∃ u, runOps ilvOps s = .next (u.enter .merge) ∧ s.PermutedTo u 256 := by
  obtain ⟨t, hrun, ht⟩ := runOps_ilvStep_permutedTo hp hfull (j := 255) (by decide)
  obtain ⟨u, hstep, hu⟩ := State.PermutedTo.ilvStep (k := 255) ht hfull
  rw [State.advance_last] at hstep
  refine ⟨u, ?_, hu⟩
  rw [ilvOps, List.range_succ, List.map_append, runOps_append hrun]
  exact runOps_cons_of_next hstep

/-- Settles O35: the table's entries, and the induction over the 256 steps. -/
theorem interleaverIsThePermutation : Obligations.InterleaverIsThePermutation := by
  refine ⟨permTable_perm_range, fun s hp hfull => ?_⟩
  obtain ⟨u, hrun, hu⟩ := runOps_ilvOps hp hfull
  refine ⟨u.enter .merge, hrun, BitVec.eq_of_toNat_eq (hu.count.trans copiesBefore_256), rfl, rfl, hu.cbuf, hu.ybuf,
    fun p hlt => hu.dbuf p hlt ?_⟩
  rwa [copiesBefore_256, ← length_permTable]

end Sys2Proof.Machine
end

section
/-! SUPPORT. The symbol merger family: the symbol as its two bits, one `MRG_STEP`, and the stage of 162 steps as an
induction whose invariant is the symbols written so far (spec/43_symbol_merger.md R176 to R178). -/

namespace Sys2Proof.Machine

/-! ### The symbol -/

/-- The data bit stands above the sync bit (R176). -/
theorem symbolOf_eq_append : ∀ s d : BitVec 1, symbolOf s d = d ++ s := by decide

/-- A symbol of two bits is at most 3, so the sum does not wrap (R176). -/
theorem symbolOf_toNat : ∀ s d : BitVec 1, (symbolOf s d).toNat = s.toNat + 2 * d.toNat := by decide

theorem symbolOf_high : ∀ s d : BitVec 1, (symbolOf s d).extractLsb' 1 1 = d := by decide

/-- A symbol is odd when its sync bit is 1, whatever the data bit. -/
theorem symbolOf_getLsbD_zero : ∀ s d : BitVec 1, (symbolOf s d).getLsbD 0 = decide (s = 1) := by decide

/-- Every index of a symbol has a sync bit (R175). -/
theorem syncRom_getElem?_of_lt {i : Nat} (hi : i < 162) : syncRom[i]? = some (syncRom.getD i 0) := by
  have hlen : i < syncRom.length := by rwa [syncRom_length]
  rw [List.getD_eq_getElem _ _ hlen, List.getElem?_eq_getElem hlen]

/-- The sync bits in the order of their indices are the table. -/
theorem map_syncRom_getD_range : (List.range 162).map (syncRom.getD · 0) = syncRom := by
  refine List.ext_getElem (by simp) fun i _ hi => ?_
  rw [List.getElem_map, List.getElem_range, List.getD_eq_getElem _ _ hi]

/-- Of the 162 sync bits 63 are 1, counted row by row of R175 (R178). -/
theorem countP_syncRom_getD : ((List.range 162).countP fun i => decide (syncRom.getD i 0 = 1)) = 63 := by
  have hcount : syncRom.countP (· = 1) = 63 := by
    simp only [syncRom, List.countP_append]
    decide
  rwa [← map_syncRom_getD_range, List.countP_map] at hcount

/-! ### One step -/

/-- Settles O36: the one write of the step, and the two ends of the advance. -/
theorem mrgStepFormsTheSymbol : Obligations.MrgStepFormsTheSymbol := by
  intro s k sync d hk hsync hd
  have hexec := exec_mrgStep_of_lt hk hsync hd
  rw [← symbolOf_eq_append]
  refine ⟨decodeSequencer_merge (Nat.le_of_lt_succ hk), bufWrite s.mem.ybuf k.toNat (symbolOf sync d),
    bufRead_bufWrite_same .., symbolOf_toNat sync d, fun j hj => bufRead_bufWrite_other _ _ hj, fun hne => ?_, ?_⟩
  · rw [hexec, State.advance_of_ne _ _ hne]
    rfl
  · rintro rfl
    rw [hexec, State.advance_last]
    rfl

/-! ### The stage -/

/-- The symbol that `MERGE` forms at an index of a `DBUF`; meaningful where the element is written. -/
def mergedSymbol (dbuf : Buf 1) (i : Nat) : BitVec 2 := symbolOf (syncRom.getD i 0) ((bufRead dbuf i).getD 0)

/-- The state `t` is where the first `j` steps of `MERGE` take a state `s`. -/
structure State.MergedTo (s t : State) (j : Nat) : Prop where
  dbuf : t.mem.dbuf = s.mem.dbuf
  ybuf : holdsUpTo t.mem.ybuf j (mergedSymbol s.mem.dbuf)
  last : j = 162 → t.ph = 5 ∧ t.k = 0

theorem State.MergedTo.zero (s : State) : s.MergedTo s 0 :=
  ⟨rfl, fun i hi => absurd hi (Nat.not_lt_zero i), fun h => absurd h (by decide)⟩

/-- One `MRG_STEP` forms one symbol more. -/
theorem State.MergedTo.mrgStep {s t : State} {k : Byte} (h : s.MergedTo t k.toNat) (hk : k.toNat < 162)
    (hfull : ∀ j < 162, bufRead s.mem.dbuf j ≠ none) :
    ∃ u, exec (.mrgStep k) t = .next u ∧ s.MergedTo u (k.toNat + 1) := by
  obtain ⟨d, hd⟩ := Option.ne_none_iff_exists'.mp (hfull _ hk)
  have hsymbol : symbolOf (syncRom.getD k.toNat 0) d = mergedSymbol s.mem.dbuf k.toNat := by
    rw [mergedSymbol, hd, Option.getD_some]
  refine ⟨_, exec_mrgStep_of_lt hk (syncRom_getElem?_of_lt hk) (h.dbuf ▸ hd), ?_⟩
  rw [hsymbol]
  constructor
  case dbuf => rw [State.advance_mem, h.dbuf]
  case ybuf =>
    rw [State.advance_mem]
    exact holdsUpTo_succ h.ybuf
  case last =>
    intro hlast
    obtain rfl : k = 161 := BitVec.eq_of_toNat_eq (by simp; omega)
    rw [State.advance_last]
    exact ⟨rfl, rfl⟩

/-- The first `j` operations of the stage form the first `j` symbols. -/
theorem runOps_mrgStep_mergedTo {s : State} (hfull : ∀ j < 162, bufRead s.mem.dbuf j ≠ none) {j : Nat}
    (hj : j ≤ 162) :
    ∃ t, runOps ((List.range j).map fun k => .mrgStep (BitVec.ofNat 8 k)) s = .next t ∧ s.MergedTo t j := by
  induction j with
  | zero => exact ⟨s, rfl, .zero s⟩
  | succ j ih =>
    obtain ⟨t, hrun, ht⟩ := ih (by omega)
    have hk : (BitVec.ofNat 8 j).toNat = j := by rw [BitVec.toNat_ofNat]; omega
    obtain ⟨u, hstep, hu⟩ := State.MergedTo.mrgStep (hk.symm ▸ ht) (by omega) hfull
    rw [hk] at hu
    refine ⟨u, ?_, hu⟩
    rw [List.range_succ, List.map_append, runOps_append hrun]
    exact runOps_cons_of_next hstep

/-- The low bit of a merged symbol is the sync bit of its index. -/
theorem syncRom_getElem?_eq_mergedSymbol_low (dbuf : Buf 1) {i : Nat} (hi : i < 162) :
    syncRom[i]? = some ((mergedSymbol dbuf i).extractLsb' 0 1) := by
  rw [mergedSymbol, symbolOf_low, syncRom_getElem?_of_lt hi]

/-- The high bit of a merged symbol is the data bit of its index, where that is written. -/
theorem bufRead_eq_mergedSymbol_high {dbuf : Buf 1} {i : Nat} (h : bufRead dbuf i ≠ none) :
    bufRead dbuf i = some ((mergedSymbol dbuf i).extractLsb' 1 1) := by
  obtain ⟨d, hd⟩ := Option.ne_none_iff_exists'.mp h
  rw [mergedSymbol, symbolOf_high, hd, Option.getD_some]

/-- As many symbols are odd as sync bits are 1 (R178). -/
theorem countP_odd_of_holdsUpTo_mergedSymbol {ybuf : Buf 2} {dbuf : Buf 1}
    (h : holdsUpTo ybuf 162 (mergedSymbol dbuf)) :
    ((List.range 162).countP fun i => (bufRead ybuf i).any fun y => y.getLsbD 0) = 63 := by
  have hodd : ∀ i ∈ List.range 162,
      ((bufRead ybuf i).any fun y => y.getLsbD 0) = decide (syncRom.getD i 0 = 1) := by
    intro i hi
    rw [h i (List.mem_range.mp hi), Option.any_some, mergedSymbol, symbolOf_getLsbD_zero]
  calc ((List.range 162).countP fun i => (bufRead ybuf i).any fun y => y.getLsbD 0)
      = (List.range 162).countP fun i => decide (syncRom.getD i 0 = 1) :=
        List.countP_congr fun i hi => by rw [hodd i hi]
    _ = 63 := countP_syncRom_getD

/-- Settles O37: the induction over the 162 steps, and the two bits of each symbol. -/
theorem mergeStageKeepsSyncAndData : Obligations.MergeStageKeepsSyncAndData := by
  intro s hfull
  obtain ⟨t, hrun, ht⟩ := runOps_mrgStep_mergedTo hfull (Nat.le_refl 162)
  obtain ⟨hph, hk⟩ := ht.last rfl
  exact ⟨t, hrun, hph, hk, ht.dbuf, fun i hi => ⟨_, ht.ybuf i hi, syncRom_getElem?_eq_mergedSymbol_low _ hi,
    bufRead_eq_mergedSymbol_high (hfull i hi)⟩, countP_odd_of_holdsUpTo_mergedSymbol ht.ybuf⟩

end Sys2Proof.Machine
end

section
/-! SUPPORT. The output stage family: one `EMIT_STEP`, a transaction from its `ACCEPT` to its end, and what the host
makes of the symbols (spec/44_output_stage.md R190 to R195; 45_sequencer_and_api.md R210, R221). -/

namespace Sys2Proof.Machine

/-! ### One step -/

/-- Settles O38: the wait, a symbol before the last, and the last, which ends the transaction. -/
theorem emitStepHandsOverOneSymbol : Obligations.EmitStepHandsOverOneSymbol := by
  refine ⟨fun _ => decodeSequencer_emit, fun s v hph hv => ⟨symValid_iff.mpr hph, symbolPort_of_bufRead hph hv⟩,
    fun _ _ => exec_emitStep_wait, fun s k v hready hk hv => ?_, fun s v hready hv => ?_⟩
  · have hne : k ≠ 161 := by
      rintro rfl
      exact absurd hk (by decide)
    rw [exec_emitStep_taken hready (by omega) hv, if_neg hne]
    rfl
  · rw [exec_emitStep_taken (k := 161) hready (by decide) hv, if_pos rfl]
    rfl

/-! ### A transaction from its ACCEPT to its end -/

/-- In `IDLE` the sequencer selects `ACCEPT` or nothing. -/
theorem eq_accept_of_decodeSequencer_idle {k : Byte} {i : Instr} (h : decodeSequencer 0 k = .ok i) : i = .accept := by
  have hcases := decodeSequencer_cases h
  cases i with
  | accept => rfl
  | reset => exact hcases.elim
  | _ => exact absurd hcases.1 (by decide)

/-- The step that takes a request latches it and leaves `IDLE` (R211). -/
theorem latch_and_ph_of_accept_step {s t : State} (hph : s.ph = 0) (hrst : s.ports.rst = false)
    (hreq : s.ports.reqValid = true) (h : step s = .next t) : t.latch = s.ports.req ∧ t.ph = 1 := by
  obtain ⟨i, u, hi, hu, rfl⟩ := step_next_iff.mp h
  rw [if_neg (by simp [hrst]), hph] at hi
  obtain rfl := eq_accept_of_decodeSequencer_idle hi
  rw [State.hostMove_latch, State.hostMove_ph]
  rcases exec_accept_next_iff.mp hu with ⟨-, rfl⟩ | ⟨hwait, -⟩
  · exact ⟨rfl, rfl⟩
  · exact absurd (hreq.symm.trans hwait) (by decide)

/-- The end of a step of a busy loop phase is not in `IDLE`. -/
theorem State.advance_ph_ne_idle {s : State} {k last : Byte} {next : Phase} (hph : s.ph ≠ 0)
    (hnext : next.code ≠ 0) :
    (s.advance k last next).ph ≠ 0 := by
  unfold State.advance
  split
  · exact hnext
  · exact hph

/-- After an operation of a busy CORE it is still busy, or has ended the transaction with `DONE` up (R217, R247). -/
theorem busy_or_done_of_exec {i : Instr} {s t : State} (hi : decodeSequencer s.ph s.k = .ok i) (hph : s.ph ≠ 0)
    (h : exec i s = .next t) : t.ph ≠ 0 ∨ t.done = true := by
  have hcases := decodeSequencer_cases hi
  have hpack : Phase.pack.code ≠ 0 := by decide
  cases i with
  | reset => exact hcases.elim
  | accept => exact absurd hcases.1 hph
  | callNorm =>
    rcases exec_callNorm_next_iff.mp h with ⟨-, rfl⟩ | ⟨-, rfl⟩
    · exact .inl hpack
    · exact .inr rfl
  | gridChk =>
    rcases exec_gridChk_next_iff.mp h with ⟨-, rfl⟩ | ⟨-, rfl⟩
    · exact .inl hpack
    · exact .inr rfl
  | pwrLookup =>
    rcases exec_pwrLookup_next_iff.mp h with ⟨-, rfl⟩ | ⟨-, rfl⟩
    · exact .inl hpack
    · exact .inr rfl
  | callPack =>
    rw [exec_callPack_next_iff.mp h]
    exact .inl hpack
  | gridPack =>
    rw [exec_gridPack_next_iff.mp h]
    exact .inl hpack
  | assemble =>
    rw [exec_assemble_next_iff.mp h]
    exact .inl (by decide : Phase.conv.code ≠ 0)
  | convStep k =>
    rw [exec_convStep_of_le (le_of_exec_convStep_next h)] at h
    cases h
    exact .inl (State.advance_ph_ne_idle hph (by decide))
  | ilvStep k =>
    rcases exec_ilvStep_next_iff.mp h with ⟨c, -, -, -, hend⟩ | ⟨-, hend⟩
    · obtain ⟨-, rfl⟩ := ilvEnd_next_iff.mp hend
      exact .inl (State.advance_ph_ne_idle hph (by decide))
    · obtain ⟨-, rfl⟩ := ilvEnd_next_iff.mp hend
      exact .inl (State.advance_ph_ne_idle hph (by decide))
  | mrgStep k =>
    obtain ⟨sync, d, -, -, -, rfl⟩ := exec_mrgStep_next_iff.mp h
    exact .inl (State.advance_ph_ne_idle hph (by decide))
  | emitStep k =>
    rcases exec_emitStep_next_iff.mp h with ⟨-, rfl⟩ | ⟨v, -, -, -, rfl⟩
    · exact .inl hph
    · split
      · exact .inr rfl
      · exact .inl hph

/-- No operation but `RESET` and `ACCEPT` writes the request latch (spec/10_state.md R42). -/
theorem exec_keeps_latch {i : Instr} {s t : State} (hreset : i ≠ .reset) (haccept : i ≠ .accept)
    (h : exec i s = .next t) : t.latch = s.latch := by
  cases i with
  | reset => exact absurd rfl hreset
  | accept => exact absurd rfl haccept
  | callNorm => exact (congrArg State.latch (exec_callNorm_frame h) :)
  | gridChk => exact (congrArg State.latch (exec_gridChk_frame h) :)
  | pwrLookup => exact (congrArg State.latch (exec_pwrLookup_frame h) :)
  | callPack => exact (congrArg State.latch (exec_callPack_frame h) :)
  | gridPack => exact (congrArg State.latch (exec_gridPack_frame h) :)
  | assemble => exact (congrArg State.latch (exec_assemble_frame h) :)
  | convStep k => exact (congrArg State.latch (exec_convStep_frame h).1 :)
  | ilvStep k => exact (congrArg State.latch (exec_ilvStep_frame h).1 :)
  | mrgStep k => exact (congrArg State.latch (exec_mrgStep_frame h).1 :)
  | emitStep k => exact (congrArg State.latch (exec_emitStep_frame h).1 :)

/-- A step of a busy CORE that is not reset keeps the request latch, and leaves CORE busy or finished. -/
theorem latch_and_busy_or_done_of_step {s t : State} (hph : s.ph ≠ 0) (hrst : s.ports.rst = false)
    (h : step s = .next t) : t.latch = s.latch ∧ (t.ph ≠ 0 ∨ t.done = true) := by
  obtain ⟨i, u, hi, hu, rfl⟩ := step_next_iff.mp h
  rw [if_neg (by simp [hrst])] at hi
  have haccept : i ≠ .accept := by
    rintro rfl
    exact hph (decodeSequencer_cases hi).1
  obtain ⟨-, hreset, -⟩ := decodeSequencer_ok hi
  rw [State.hostMove_latch, State.hostMove_ph, State.hostMove_done]
  exact ⟨exec_keeps_latch hreset haccept hu, busy_or_done_of_exec hi hph hu⟩

/-- A run through busy states with no reset keeps the request latch, and leaves CORE busy or finished. -/
theorem latch_and_busy_or_done_of_run {n : Nat} {s t : State} (hrun : Host.Core.run core n s = .next t)
    (hbusy : ∀ j < n, ∃ u : State, Host.Core.run core j s = .next u ∧ u.ph ≠ 0 ∧ u.ports.rst = false)
    (hs : s.ph ≠ 0 ∨ s.done = true) : t.latch = s.latch ∧ (t.ph ≠ 0 ∨ t.done = true) := by
  induction n generalizing s with
  | zero =>
    cases hrun
    exact ⟨rfl, hs⟩
  | succ n ih =>
    obtain ⟨u, hu, hrun⟩ := exists_step_of_run hrun
    obtain ⟨s', hs', hph, hrst⟩ := hbusy 0 (Nat.succ_pos n)
    cases hs'
    obtain ⟨hlatch, hnext⟩ := latch_and_busy_or_done_of_step hph hrst hu
    rw [← hlatch]
    refine ih hrun (fun j hj => ?_) hnext
    rw [← run_succ_of_next j hu]
    exact hbusy (j + 1) (Nat.succ_lt_succ hj)

/-- A transaction ends with `DONE` up and its request still latched. -/
theorem latch_and_done_of_transactionTo {s t : State} {n : Nat} (h : s.transactionTo n t) :
    t.latch = s.ports.req ∧ t.done = true := by
  obtain ⟨hph, hrst, hreq, hn, hrun, hend, hbusy⟩ := h
  obtain ⟨m, rfl⟩ := Nat.exists_eq_add_of_le' hn
  obtain ⟨u, hu, hrun⟩ := exists_step_of_run hrun
  obtain ⟨hlatch, hfirst⟩ := latch_and_ph_of_accept_step hph hrst hreq hu
  have hbusy' : ∀ j < m, ∃ v : State, Host.Core.run core j u = .next v ∧ v.ph ≠ 0 ∧ v.ports.rst = false := by
    intro j hj
    rw [← run_succ_of_next j hu]
    exact hbusy (j + 1) (Nat.succ_pos j) (Nat.succ_lt_succ hj)
  obtain ⟨hkeep, hlast⟩ := latch_and_busy_or_done_of_run hrun hbusy' (.inl (by simp [hfirst]))
  exact ⟨hkeep.trans hlatch, hlast.resolve_left (not_not_intro hend)⟩

/-- An idle state of the invariant that has finished shows the result of the latched request: the error it deserves and
no symbol, or its frame (R210). -/
theorem result_of_finished {s : State} (h : s.Inv) (hph : s.ph = 0) (hdone : s.done = true) :
    (∃ e, pack s.latch = .error e ∧ s.err = errorCode e ∧ s.out = []) ∨
      ∃ n, pack s.latch = .ok n ∧ s.err = 0 ∧ s.out = frameOf n := by
  rcases idle_or_busy_of_inv h with ⟨-, hshown⟩ | ⟨hbusy, -⟩
  · rw [State.resultShown, if_pos hdone, transact] at hshown
    cases hpack : pack s.latch with
    | error e =>
      rw [hpack] at hshown
      exact .inl ⟨e, rfl, hshown⟩
    | ok n =>
      rw [hpack] at hshown
      exact .inr ⟨n, rfl, hshown⟩
  · exact absurd hph hbusy

/-- Settles O47: the invariant gives the result of the latched request, and the latch keeps the request taken. -/
theorem finishedTransactionShowsEncode : Obligations.FinishedTransactionShowsEncode := by
  intro s t n hs htrans
  obtain ⟨hlatch, hdone⟩ := latch_and_done_of_transactionTo htrans
  obtain ⟨-, -, -, -, hrun, hidle, -⟩ := htrans
  have hinv : t.Inv := run_keeps (fun _ _ => step_keeps_inv) (reachable_inv hs) hrun
  refine ⟨hdone, by rw [hinv.busy, hidle]; rfl, ?_⟩
  rw [← hlatch, transact]
  rcases result_of_finished hinv hidle hdone with ⟨e, hpack, herr, hout⟩ | ⟨word, hpack, herr, hout⟩
  · rw [hpack]
    cases e <;> exact ⟨herr, hout⟩
  · rw [hpack]
    exact ⟨herr, hout, by rw [hout, frameOf_length]⟩

/-! ### What the host makes of the symbols -/

/-- The bits file of a frame is its symbols as bytes, in the order of their indices (R192). -/
theorem bitsFile_frameOf (n : BitVec 50) :
    bitsFile (frameOf n) = (List.range 162).map fun i => symByteOf (symbolAt n i) := by
  rw [bitsFile, frameOf, List.map_map]
  rfl

/-- Settles O50: an `ERR` of 0 is no error's code, so `OUT` is the frame of the latched request. -/
theorem bitsFileIsOneByteASymbol : Obligations.BitsFileIsOneByteASymbol := by
  intro t hinv hph hdone herr
  rcases result_of_finished hinv hph hdone with ⟨e, -, hcode, -⟩ | ⟨n, hpack, -, hout⟩
  · rw [herr] at hcode
    cases e <;> exact absurd hcode (by decide)
  · rw [hout, bitsFile_frameOf]
    refine ⟨by simp, n, hpack, fun i hi => ⟨symByteOf (symbolAt n i), ?_, symByteOf_toNat _, ?_⟩⟩
    · rw [List.getElem?_map, List.getElem?_range hi, Option.map_some]
    · rw [symByteOf_toNat]
      exact Nat.le_of_lt_succ (symbolAt n i).isLt

/-- Altering a symbol complements its sync bit (R195). -/
theorem alteredSymbol_symbolOf : ∀ s d : BitVec 1, alteredSymbol (symbolOf s d) = symbolOf (~~~s) d := by decide

/-- Settles O51: the altered symbol is the symbol of the complemented sync bit. -/
theorem alteredSymbolFlipsTheSyncBit : Obligations.AlteredSymbolFlipsTheSyncBit := by
  intro s d
  rw [alteredSymbol_symbolOf, symbolOf_toNat, BitVec.toNat_not]

/-- Settles O52: the four tones, each computed. -/
theorem tonesAreTheFourFrequencies : Obligations.TonesAreTheFourFrequencies := by
  unfold Obligations.TonesAreTheFourFrequencies
  decide

end Sys2Proof.Machine
end

section
/-! SUPPORT. The sequencer family: the operation that follows each operation, where one waits and where one raises
(spec/45_sequencer_and_api.md R212, R215, R217, R218, R220; 60_exceptions.md R246). -/

namespace Sys2Proof

/-- The operation that follows one that is taken and raises no error, in the order of R215. -/
def Instr.successor (i : Instr) : Instr :=
  match i with
  | .reset => .accept
  | .accept => .callNorm
  | .callNorm => .gridChk
  | .gridChk => .pwrLookup
  | .pwrLookup => .callPack
  | .callPack => .gridPack
  | .gridPack => .assemble
  | .assemble => .convStep 0
  | .convStep k => if k = 80 then .ilvStep 0 else .convStep (k + 1)
  | .ilvStep k => if k = 255 then .mrgStep 0 else .ilvStep (k + 1)
  | .mrgStep k => if k = 161 then .emitStep 0 else .mrgStep (k + 1)
  | .emitStep k => if k = 161 then .accept else .emitStep (k + 1)

end Sys2Proof

namespace Sys2Proof.Machine

/-! ### What one operation does to the sequencer -/

/-- The operation waits for its handshake (R218, R278). -/
def State.waitsAt (s : State) (i : Instr) : Prop :=
  match i with
  | .accept => s.ports.reqValid = false
  | .emitStep _ => s.ports.symReady = false
  | _ => False

/-- The error the operation raises for a latched request (R101, R105, R106). -/
def rejection (i : Instr) (q : Req) : Option EncodeError :=
  match i with
  | .callNorm => if callOk q.call q.callLen then none else some .invalidCallsign
  | .gridChk => if gridOk q.grid q.gridLen then none else some .invalidGrid
  | .pwrLookup => if pwrOk q.dbm then none else some .invalidPower
  | _ => none

/-- The three ways an operation leaves the sequencer: it waits, it raises its error, or it selects its successor. -/
inductive Sequel (i : Instr) (s u : State) : Prop
  | waits (hwait : s.waitsAt i) (hu : u = s)
  | raises (e : EncodeError) (he : rejection i s.latch = some e) (hu : u = s.raise e)
  | goesOn (hwait : ¬ s.waitsAt i) (hpass : rejection i s.latch = none)
      (hnext : decodeSequencer u.ph u.k = .ok i.successor)

/-- The end of a step of a loop phase selects the first operation of the next phase, or the phase's next one. -/
theorem decodeSequencer_advance {s : State} {k last : Byte} {next : Phase} {i j : Instr}
    (hend : decodeSequencer next.code 0 = .ok i) (hgo : k ≠ last → decodeSequencer s.ph (k + 1) = .ok j) :
    decodeSequencer (s.advance k last next).ph (s.advance k last next).k = .ok (if k = last then i else j) := by
  unfold State.advance
  split
  · exact hend
  · next hne => exact hgo hne

/-- Below the last value of `K` the next value is in range. -/
theorem toNat_succ_le_of_ne {k last : Byte} (hle : k.toNat ≤ last.toNat) (hne : k ≠ last) :
    (k + 1).toNat ≤ last.toNat := by
  obtain ⟨hsucc, hlt⟩ := toNat_succ_of_ne hle hne
  rwa [hsucc]

/-- Every operation that goes on waits, raises, or selects its successor (R215). -/
theorem sequel_of_exec {i : Instr} {s u : State} (hi : decodeSequencer s.ph s.k = .ok i) (h : exec i s = .next u) :
    Sequel i s u := by
  have hcases := decodeSequencer_cases hi
  cases i with
  | reset => exact hcases.elim
  | accept =>
    rcases exec_accept_next_iff.mp h with ⟨hreq, rfl⟩ | ⟨hwait, rfl⟩
    · exact .goesOn (ne_false_of_eq_true hreq) rfl rfl
    · exact .waits hwait rfl
  | callNorm =>
    rcases exec_callNorm_next_iff.mp h with ⟨hok, rfl⟩ | ⟨hbad, rfl⟩
    · exact .goesOn not_false (if_pos hok) rfl
    · exact .raises _ (if_neg (ne_true_of_eq_false hbad)) rfl
  | gridChk =>
    rcases exec_gridChk_next_iff.mp h with ⟨hok, rfl⟩ | ⟨hbad, rfl⟩
    · exact .goesOn not_false (if_pos hok) rfl
    · exact .raises _ (if_neg (ne_true_of_eq_false hbad)) rfl
  | pwrLookup =>
    rcases exec_pwrLookup_next_iff.mp h with ⟨hok, rfl⟩ | ⟨hbad, rfl⟩
    · exact .goesOn not_false (if_pos hok) rfl
    · exact .raises _ (if_neg (ne_true_of_eq_false hbad)) rfl
  | callPack =>
    rw [exec_callPack_next_iff.mp h]
    exact .goesOn not_false rfl rfl
  | gridPack =>
    rw [exec_gridPack_next_iff.mp h]
    exact .goesOn not_false rfl rfl
  | assemble =>
    rw [exec_assemble_next_iff.mp h]
    exact .goesOn not_false rfl rfl
  | convStep k =>
    obtain ⟨hph, rfl, hk⟩ := hcases
    rw [exec_convStep_of_le hk] at h
    cases h
    refine .goesOn not_false rfl (decodeSequencer_advance rfl fun hne => ?_)
    rw [hph]
    exact decodeSequencer_conv (toNat_succ_le_of_ne (last := 80) hk hne)
  | ilvStep k =>
    obtain ⟨hph, rfl⟩ := hcases
    have hadvance : ∀ v : State, ilvEnd s.k v = .next u → v.ph = 3 → Sequel (.ilvStep s.k) s u := by
      intro v hend hv
      obtain ⟨-, rfl⟩ := ilvEnd_next_iff.mp hend
      exact .goesOn not_false rfl (decodeSequencer_advance rfl fun _ => hv ▸ decodeSequencer_ilv _)
    rcases exec_ilvStep_next_iff.mp h with ⟨c, -, -, -, hend⟩ | ⟨-, hend⟩
    · exact hadvance _ hend hph
    · exact hadvance _ hend hph
  | mrgStep k =>
    obtain ⟨hph, rfl, hk⟩ := hcases
    obtain ⟨sync, d, -, -, -, rfl⟩ := exec_mrgStep_next_iff.mp h
    refine .goesOn not_false rfl (decodeSequencer_advance rfl fun hne => ?_)
    rw [hph]
    exact decodeSequencer_merge (toNat_succ_le_of_ne (last := 161) hk hne)
  | emitStep k =>
    obtain ⟨hph, rfl, hk⟩ := hcases
    rcases exec_emitStep_next_iff.mp h with ⟨hwait, rfl⟩ | ⟨v, hready, -, -, rfl⟩
    · exact .waits hwait rfl
    · refine .goesOn (ne_false_of_eq_true hready) rfl ?_
      simp only [Instr.successor]
      split
      · rfl
      · next hne =>
        rw [State.setK_ph, State.emit_ph, hph]
        exact decodeSequencer_emit (toNat_succ_le_of_ne (last := 161) hk hne)

/-- The operation a step without reset runs, what it answers, and how it leaves the sequencer. -/
theorem exists_sequel_of_step {s t : State} (hrst : s.ports.rst = false) (h : step s = .next t) :
    ∃ i u, decodeSequencer s.ph s.k = .ok i ∧ exec i s = .next u ∧ t = u.hostMove ∧ Sequel i s u := by
  obtain ⟨i, u, hi, hu, ht⟩ := step_next_iff.mp h
  rw [if_neg (by simp [hrst])] at hi
  exact ⟨i, u, hi, hu, ht, sequel_of_exec hi hu⟩

/-- Only the first three sub-steps of `PACK` raise (R246). -/
theorem pack_of_rejection {i : Instr} {ph : BitVec 3} {k : Byte} {q : Req} {e : EncodeError}
    (hi : decodeSequencer ph k = .ok i) (he : rejection i q = some e) : ph = 1 ∧ k.toNat ≤ 2 := by
  have hcases := decodeSequencer_cases hi
  cases i with
  | callNorm | gridChk | pwrLookup =>
    obtain ⟨hph, rfl⟩ := hcases
    exact ⟨hph, by decide⟩
  | _ => cases he

end Sys2Proof.Machine
end

section
/-! SUPPORT. The sequencer family, one step: the order of phases, waiting, phase entries, the two ends of a transaction
and the steps left (spec/45_sequencer_and_api.md R211, R212, R215, R217, R218, R220; 70_reset_and_hazards.md R278). -/

namespace Sys2Proof.Machine

/-! ### The order of phases -/

theorem errorCode_ne_zero (e : EncodeError) : errorCode e ≠ 0 := by
  cases e <;> decide

/-- The successor in a loop phase: the phase's next operation below the last `K`, or what follows the phase. -/
theorem loop_successor_cases {k last : Byte} {i j : Instr} {ph' : BitVec 3} {k' : Byte} (hle : k.toNat ≤ last.toNat)
    (h : decodeSequencer ph' k' = .ok (if k = last then i else j)) :
    (k.toNat < last.toNat ∧ decodeSequencer ph' k' = .ok j) ∨ (k = last ∧ decodeSequencer ph' k' = .ok i) := by
  split at h
  · next hlast => exact .inr ⟨hlast, h⟩
  · next hne => exact .inl ⟨Nat.lt_of_le_of_ne hle (BitVec.toNat_ne.mp hne), h⟩

/-- `PH` and `K` of the successor, from those of the operation (R215). -/
theorem successor_cases {i : Instr} {ph ph' : BitVec 3} {k k' : Byte} (hi : decodeSequencer ph k = .ok i)
    (hnext : decodeSequencer ph' k' = .ok i.successor) :
    match i with
    | .reset => False
    | .accept => ph = 0 ∧ k = 0 ∧ ph' = 1 ∧ k' = 0
    | .callNorm | .gridChk | .pwrLookup | .callPack | .gridPack => ph = 1 ∧ k.toNat ≤ 4 ∧ ph' = 1 ∧ k' = k + 1
    | .assemble => ph = 1 ∧ k = 5 ∧ ph' = 2 ∧ k' = 0
    | .convStep _ =>
      ph = 2 ∧ ((k.toNat < 80 ∧ ph' = 2 ∧ k' = k + 1) ∨ (k = 80 ∧ ph' = 3 ∧ k' = 0))
    | .ilvStep _ =>
      ph = 3 ∧ ((k.toNat < 255 ∧ ph' = 3 ∧ k' = k + 1) ∨ (k = 255 ∧ ph' = 4 ∧ k' = 0))
    | .mrgStep _ =>
      ph = 4 ∧ ((k.toNat < 161 ∧ ph' = 4 ∧ k' = k + 1) ∨ (k = 161 ∧ ph' = 5 ∧ k' = 0))
    | .emitStep _ =>
      ph = 5 ∧ ((k.toNat < 161 ∧ ph' = 5 ∧ k' = k + 1) ∨ (k = 161 ∧ ph' = 0 ∧ k' = 0)) := by
  have hcases := decodeSequencer_cases hi
  cases i with
  | reset => exact hcases.elim
  | accept =>
    obtain ⟨hph', hk'⟩ := decodeSequencer_cases hnext
    exact ⟨hcases.1, hcases.2, hph', hk'⟩
  | callNorm | gridChk | pwrLookup | callPack | gridPack =>
    obtain ⟨hph, rfl⟩ := hcases
    obtain ⟨hph', rfl⟩ := decodeSequencer_cases hnext
    exact ⟨hph, by decide, hph', by decide⟩
  | assemble =>
    obtain ⟨hph', hk', -⟩ := decodeSequencer_cases hnext
    exact ⟨hcases.1, hcases.2, hph', hk'.symm⟩
  | convStep j =>
    obtain ⟨hph, rfl, hk⟩ := hcases
    rcases loop_successor_cases (last := 80) hk hnext with ⟨hlt, hnext⟩ | ⟨hlast, hnext⟩
    · obtain ⟨hph', hk', -⟩ := decodeSequencer_cases hnext
      exact ⟨hph, .inl ⟨hlt, hph', hk'.symm⟩⟩
    · obtain ⟨hph', hk'⟩ := decodeSequencer_cases hnext
      exact ⟨hph, .inr ⟨hlast, hph', hk'.symm⟩⟩
  | ilvStep j =>
    obtain ⟨hph, rfl⟩ := hcases
    rcases loop_successor_cases (last := 255) (Nat.le_of_lt_succ j.isLt) hnext with ⟨hlt, hnext⟩ | ⟨hlast, hnext⟩
    · obtain ⟨hph', hk'⟩ := decodeSequencer_cases hnext
      exact ⟨hph, .inl ⟨hlt, hph', hk'.symm⟩⟩
    · obtain ⟨hph', hk', -⟩ := decodeSequencer_cases hnext
      exact ⟨hph, .inr ⟨hlast, hph', hk'.symm⟩⟩
  | mrgStep j =>
    obtain ⟨hph, rfl, hk⟩ := hcases
    rcases loop_successor_cases (last := 161) hk hnext with ⟨hlt, hnext⟩ | ⟨hlast, hnext⟩
    · obtain ⟨hph', hk', -⟩ := decodeSequencer_cases hnext
      exact ⟨hph, .inl ⟨hlt, hph', hk'.symm⟩⟩
    · obtain ⟨hph', hk', -⟩ := decodeSequencer_cases hnext
      exact ⟨hph, .inr ⟨hlast, hph', hk'.symm⟩⟩
  | emitStep j =>
    obtain ⟨hph, rfl, hk⟩ := hcases
    rcases loop_successor_cases (last := 161) hk hnext with ⟨hlt, hnext⟩ | ⟨hlast, hnext⟩
    · obtain ⟨hph', hk', -⟩ := decodeSequencer_cases hnext
      exact ⟨hph, .inl ⟨hlt, hph', hk'.symm⟩⟩
    · obtain ⟨hph', hk'⟩ := decodeSequencer_cases hnext
      exact ⟨hph, .inr ⟨hlast, hph', hk'⟩⟩

/-- Settles O8: a wait, a raise, or the place of the successor. -/
theorem phasesFollowTheLinearOrder : Obligations.PhasesFollowTheLinearOrder := by
  intro s t h
  refine ⟨fun hrst => ?_, fun hrst => ?_⟩
  · obtain ⟨i, u, hi, hu, rfl⟩ := step_next_iff.mp h
    rw [if_pos hrst] at hi
    subst hi
    rw [State.hostMove_ph, State.hostMove_k, exec_reset_next_iff.mp hu]
    exact ⟨rfl, rfl⟩
  · obtain ⟨i, u, hi, -, rfl, hsequel⟩ := exists_sequel_of_step hrst h
    rw [State.hostMove_ph, State.hostMove_k, State.hostMove_err]
    cases hsequel with
    | waits hwait hu =>
      subst hu
      have hcases := decodeSequencer_cases hi
      cases i with
      | accept =>
        obtain ⟨hph, hk⟩ := hcases
        exact .inl ⟨hph, hk, hwait, hph, hk⟩
      | emitStep k =>
        obtain ⟨hph, -, hk⟩ := hcases
        have hready : u.ports.symReady = false := hwait
        simp [hph, hk, hready]
      | _ => exact hwait.elim
    | raises e he hu =>
      subst hu
      obtain ⟨hph, hk⟩ := pack_of_rejection hi he
      exact .inr (.inr (.inl ⟨hph, hk, rfl, rfl, errorCode_ne_zero e⟩))
    | goesOn hwait _ hnext =>
      have hcases := successor_cases hi hnext
      cases i with
      | reset => exact hcases.elim
      | accept =>
        obtain ⟨hph, hk, hph', hk'⟩ := hcases
        have hreq : s.ports.reqValid = true := eq_true_of_ne_false hwait
        exact .inr (.inl ⟨hph, hk, hreq, hph', hk'⟩)
      | emitStep k =>
        have hready : s.ports.symReady = true := eq_true_of_ne_false hwait
        obtain ⟨hph, ⟨hk, hph', hk'⟩ | ⟨hk, hph', hk'⟩⟩ := hcases <;> simp [hph, hk, hready, hph', hk']
      | callNorm | gridChk | pwrLookup | callPack | gridPack | assemble =>
        obtain ⟨hph, hk, hph', hk'⟩ := hcases
        simp [hph, hk, hph', hk']
      | convStep k | ilvStep k | mrgStep k =>
        obtain ⟨hph, ⟨hk, hph', hk'⟩ | ⟨hk, hph', hk'⟩⟩ := hcases <;> simp [hph, hk, hph', hk']

/-- Settles O12: the two outcomes of `ACCEPT`, and the latch along a step of a busy CORE. -/
theorem acceptTakesThePayloadOnce : Obligations.AcceptTakesThePayloadOnce :=
  ⟨rfl, fun _ hreq => exec_accept_next_iff.mpr (.inl ⟨hreq, rfl⟩),
    fun _ hreq => exec_accept_next_iff.mpr (.inr ⟨hreq, rfl⟩),
    fun _ _ hrst hph h => (latch_and_busy_or_done_of_step hph hrst h).1⟩

/-! ### Waiting -/

/-- No operation writes the input ports or the host's coming moves (spec/10_state.md R42). -/
theorem exec_keeps_host {i : Instr} {s t : State} (h : exec i s = .next t) : t.ports = s.ports ∧ t.host = s.host := by
  cases i with
  | reset => exact exec_reset_frame h
  | accept => rw [exec_accept_frame h]; exact ⟨rfl, rfl⟩
  | callNorm => rw [exec_callNorm_frame h]; exact ⟨rfl, rfl⟩
  | gridChk => rw [exec_gridChk_frame h]; exact ⟨rfl, rfl⟩
  | pwrLookup => rw [exec_pwrLookup_frame h]; exact ⟨rfl, rfl⟩
  | callPack => rw [exec_callPack_frame h]; exact ⟨rfl, rfl⟩
  | gridPack => rw [exec_gridPack_frame h]; exact ⟨rfl, rfl⟩
  | assemble => rw [exec_assemble_frame h]; exact ⟨rfl, rfl⟩
  | convStep k => rw [(exec_convStep_frame h).1]; exact ⟨rfl, rfl⟩
  | ilvStep k => rw [(exec_ilvStep_frame h).1]; exact ⟨rfl, rfl⟩
  | mrgStep k => rw [(exec_mrgStep_frame h).1]; exact ⟨rfl, rfl⟩
  | emitStep k => rw [(exec_emitStep_frame h).1]; exact ⟨rfl, rfl⟩

/-- With no move of the host to come, a step without reset is its operation. -/
theorem step_of_exec_of_host_nil {s u : State} {i : Instr} (hrst : s.ports.rst = false) (hhost : s.host = [])
    (hi : decodeSequencer s.ph s.k = .ok i) (h : exec i s = .next u) : step s = .next u := by
  obtain ⟨-, hkept⟩ := exec_keeps_host h
  exact step_next_iff.mpr ⟨i, u, by rwa [if_neg (ne_true_of_eq_false hrst)], h,
    (State.hostMove_of_host_nil u (hkept.trans hhost)).symm⟩

/-- A state that steps to itself stays for every number of steps. -/
theorem run_self_of_step_self {s : State} (h : step s = .next s) (n : Nat) : Host.Core.run core n s = .next s := by
  induction n with
  | zero => rfl
  | succ n ih => rwa [run_succ_of_next n h]

/-- Settles O13: in both waits the selected operation changes nothing. -/
theorem waitingChangesNothing : Obligations.WaitingChangesNothing := by
  intro s n hrst hhost hwait
  refine run_self_of_step_self ?_ n
  rcases hwait with ⟨hph, hk, hreq⟩ | ⟨hph, hk, hready⟩
  · exact step_of_exec_of_host_nil (i := .accept) hrst hhost (by rw [hph, hk]; rfl)
      (exec_accept_next_iff.mpr (.inr ⟨hreq, rfl⟩))
  · exact step_of_exec_of_host_nil hrst hhost (by rw [hph]; exact decodeSequencer_emit hk) (exec_emitStep_wait hready)

/-! ### Entering a phase -/

/-- `u` is the entry of a phase by an operation that starts from `s`: but for `ILV`, whose entry clears `P`, the
operation itself has written neither `R` nor `P`. -/
def EntersPhase (s u : State) : Prop :=
  ∃ (v : State) (next : Phase), u = v.enter next ∧ (next = .ilv ∨ v.r = s.r ∧ v.p = s.p)

/-- The end of a step of a loop phase stays in the phase, or enters the next one. -/
theorem State.advance_stays_or_enters {s s' : State} (k last : Byte) {next : Phase} (hph : s'.ph = s.ph)
    (hkept : next = .ilv ∨ s'.r = s.r ∧ s'.p = s.p) :
    (s'.advance k last next).ph = s.ph ∨ EntersPhase s (s'.advance k last next) := by
  unfold State.advance
  split
  · exact .inr ⟨_, next, rfl, hkept⟩
  · exact .inl hph

/-- An operation stays in its phase, or enters another by `enter` (R212). -/
theorem stays_or_enters_of_exec {i : Instr} {s u : State} (hi : decodeSequencer s.ph s.k = .ok i)
    (h : exec i s = .next u) : u.ph = s.ph ∨ EntersPhase s u := by
  have hcases := decodeSequencer_cases hi
  cases i with
  | reset => exact hcases.elim
  | accept =>
    rcases exec_accept_next_iff.mp h with ⟨-, rfl⟩ | ⟨-, rfl⟩
    · exact .inr ⟨_, .pack, rfl, .inr ⟨rfl, rfl⟩⟩
    · exact .inl rfl
  | callNorm =>
    rcases exec_callNorm_next_iff.mp h with ⟨-, rfl⟩ | ⟨-, rfl⟩
    · exact .inl hcases.1.symm
    · exact .inr ⟨_, .idle, rfl, .inr ⟨rfl, rfl⟩⟩
  | gridChk =>
    rcases exec_gridChk_next_iff.mp h with ⟨-, rfl⟩ | ⟨-, rfl⟩
    · exact .inl hcases.1.symm
    · exact .inr ⟨_, .idle, rfl, .inr ⟨rfl, rfl⟩⟩
  | pwrLookup =>
    rcases exec_pwrLookup_next_iff.mp h with ⟨-, rfl⟩ | ⟨-, rfl⟩
    · exact .inl hcases.1.symm
    · exact .inr ⟨_, .idle, rfl, .inr ⟨rfl, rfl⟩⟩
  | callPack =>
    rw [exec_callPack_next_iff.mp h]
    exact .inl hcases.1.symm
  | gridPack =>
    rw [exec_gridPack_next_iff.mp h]
    exact .inl hcases.1.symm
  | assemble =>
    rw [exec_assemble_next_iff.mp h]
    exact .inr ⟨_, .conv, rfl, .inr ⟨rfl, rfl⟩⟩
  | convStep k =>
    rw [exec_convStep_of_le (le_of_exec_convStep_next h)] at h
    cases h
    exact State.advance_stays_or_enters _ _ rfl (.inl rfl)
  | ilvStep k =>
    rcases exec_ilvStep_next_iff.mp h with ⟨c, hk, -, -, hend⟩ | ⟨-, hend⟩
    · exact .inl ((ilvEnd_frame hend).2 (ne_255_of_ilvIndex_lt hk))
    · obtain ⟨-, rfl⟩ := ilvEnd_next_iff.mp hend
      exact State.advance_stays_or_enters _ _ rfl (.inr ⟨rfl, rfl⟩)
  | mrgStep k =>
    obtain ⟨sync, d, -, -, -, rfl⟩ := exec_mrgStep_next_iff.mp h
    exact State.advance_stays_or_enters _ _ rfl (.inr ⟨rfl, rfl⟩)
  | emitStep k =>
    rcases exec_emitStep_next_iff.mp h with ⟨-, rfl⟩ | ⟨v, -, -, -, rfl⟩
    · exact .inl rfl
    · split
      · exact .inr ⟨_, .idle, rfl, .inr ⟨rfl, rfl⟩⟩
      · exact .inl rfl

/-- Settles O15: a changed phase was entered, and `enter` clears `K`, and `R` or `P` by the phase. -/
theorem enteringAPhaseClearsItsCounters : Obligations.EnteringAPhaseClearsItsCounters := by
  intro s t hrst h hne
  obtain ⟨i, u, hi, hu, rfl, -⟩ := exists_sequel_of_step hrst h
  simp only [State.hostMove_ph, State.hostMove_k, State.hostMove_r, State.hostMove_p] at hne ⊢
  obtain ⟨v, next, rfl, hkept⟩ := (stays_or_enters_of_exec hi hu).resolve_left hne
  cases next <;> simp_all

/-! ### The end of a transaction -/

/-- Only the last `EMIT_STEP` is followed by `ACCEPT`. -/
theorem eq_last_emitStep_of_successor {i : Instr} (hreset : i ≠ .reset) (h : i.successor = .accept) :
    i = .emitStep 161 := by
  cases i with
  | reset => exact absurd rfl hreset
  | convStep k | ilvStep k | mrgStep k =>
    simp only [Instr.successor] at h
    split at h <;> cases h
  | emitStep k =>
    simp only [Instr.successor] at h
    split at h
    · next hlast => rw [hlast]
    · cases h
  | _ => cases h

/-- Settles O16: CORE is idle again by a raise in `PACK`, or because `ACCEPT` follows the last `EMIT_STEP`. -/
theorem transactionsEndInOneOfTwoWays : Obligations.TransactionsEndInOneOfTwoWays := by
  intro s t hrst hbusy h hidle
  obtain ⟨i, u, hi, hu, rfl, hsequel⟩ := exists_sequel_of_step hrst h
  rw [State.hostMove_ph] at hidle
  rw [hostMove_eq u]
  cases hsequel with
  | waits _ hwait => exact absurd (hwait ▸ hidle) hbusy
  | raises e he hraise =>
    subst hraise
    exact ⟨rfl, rfl, rfl, .inr ⟨(pack_of_rejection hi he).1, e, rfl⟩⟩
  | goesOn hwait _ hnext =>
    rw [hidle] at hnext
    obtain ⟨-, hreset, -⟩ := decodeSequencer_ok hi
    obtain rfl := eq_last_emitStep_of_successor hreset (eq_accept_of_decodeSequencer_idle hnext)
    obtain ⟨hph, hk, -⟩ := decodeSequencer_cases hi
    rcases exec_emitStep_next_iff.mp hu with ⟨hready, -⟩ | ⟨v, hready, -, hv, rfl⟩
    · exact absurd hready hwait
    · refine ⟨rfl, rfl, rfl, .inl ⟨hph, hk.symm, hready, fun hinv => ?_, v, hv, rfl⟩⟩
      rcases idle_or_busy_of_inv hinv with ⟨hph0, -⟩ | ⟨-, -, herr⟩
      · exact absurd hph0 hbusy
      · exact herr

/-! ### The steps left -/

/-- From every busy operation to its successor there is one step fewer left (R220). -/
theorem stepsLeft_eq_successor_add_one {i : Instr} {ph : BitVec 3} {k : Byte} (hi : decodeSequencer ph k = .ok i)
    (hbusy : ph ≠ 0) : stepsLeft i = stepsLeft i.successor + 1 := by
  have hcases := decodeSequencer_cases hi
  cases i with
  | reset => exact hcases.elim
  | accept => exact absurd hcases.1 hbusy
  | callNorm | gridChk | pwrLookup | callPack | gridPack | assemble => rfl
  | convStep j =>
    obtain ⟨-, rfl, hk⟩ := hcases
    simp only [Instr.successor]
    split
    · next hlast => rw [hlast]; rfl
    · next hne =>
      obtain ⟨hsucc, hle⟩ := toNat_succ_of_ne (last := 80) hk hne
      simp only [stepsLeft, hsucc]
      omega
  | ilvStep j =>
    simp only [Instr.successor]
    split
    · next hlast => rw [hlast]; rfl
    · next hne =>
      obtain ⟨hsucc, hle⟩ := toNat_succ_of_ne (last := 255) (Nat.le_of_lt_succ j.isLt) hne
      simp only [stepsLeft, hsucc]
      omega
  | mrgStep j | emitStep j =>
    obtain ⟨-, rfl, hk⟩ := hcases
    simp only [Instr.successor]
    split
    · next hlast => rw [hlast]; rfl
    · next hne =>
      obtain ⟨hsucc, hle⟩ := toNat_succ_of_ne (last := 161) hk hne
      simp only [stepsLeft, hsucc]
      omega

/-- A busy CORE waits nowhere but in `EMIT` for `sym_ready` (R278). -/
theorem not_waitsAt_of_busy {s : State} {i : Instr} (hi : decodeSequencer s.ph s.k = .ok i) (hbusy : s.ph ≠ 0)
    (hready : s.ph = 5 → s.ports.symReady = true) : ¬ s.waitsAt i := by
  have hcases := decodeSequencer_cases hi
  cases i with
  | accept => exact absurd hcases.1 hbusy
  | emitStep k => exact ne_false_of_eq_true (hready hcases.1)
  | _ => exact not_false

/-- Settles O49: with `sym_ready` up a busy CORE does not wait: it raises, or goes on to the successor. -/
theorem everyStepBringsTheEndNearer : Obligations.EveryStepBringsTheEndNearer := by
  intro s t _ hrst hbusy hready h
  obtain ⟨i, u, hi, -, rfl, hsequel⟩ := exists_sequel_of_step hrst h
  rw [State.hostMove_ph, State.hostMove_k, State.hostMove_done]
  cases hsequel with
  | waits hwait _ => exact absurd hwait (not_waitsAt_of_busy hi hbusy hready)
  | raises e _ hraise =>
    subst hraise
    exact .inl ⟨rfl, rfl⟩
  | goesOn _ _ hnext => exact .inr ⟨i, _, hi, hnext, stepsLeft_eq_successor_add_one hi hbusy⟩

end Sys2Proof.Machine
end

section
/-! SUPPORT. The sequencer family, the payload: what `encode` reads of a request (spec/45_sequencer_and_api.md R219;
30_encoding.md R70). -/

namespace Sys2Proof.Machine

/-! ### The callsign -/

/-- The grammar reads the presented string alone. -/
theorem callsignParse_congr {call call' : Field6} {len : BitVec 3} (h : presented call len = presented call' len)
    (head : List Byte) (digit : Byte) (tail : List Byte) :
    CallsignParse call len head digit tail ↔ CallsignParse call' len head digit tail := by
  rw [CallsignParse, CallsignParse, isPresented_iff, isPresented_iff, h]

theorem callOk_congr {call call' : Field6} {len : BitVec 3} (h : presented call len = presented call' len) :
    callOk call len = callOk call' len := by
  rw [Bool.eq_iff_iff, callOk_iff_exists_parse, callOk_iff_exists_parse]
  simp only [callsignParse_congr h]

theorem charList_injective {x y : Field6} (h : charList x = charList y) : x = y := by
  cases x
  cases y
  simp_all [charList]

/-- The normalised field is a function of the presented string (R101). -/
theorem normalise_congr {call call' : Field6} {len : BitVec 3} (h : presented call len = presented call' len)
    (hok : callOk call len = true) : normalise call len = normalise call' len := by
  obtain ⟨head, digit, tail, hparse⟩ := callOk_iff_exists_parse.mp hok
  obtain ⟨-, hspaces⟩ := callOk_and_leadingSpaces_of_parse hparse
  obtain ⟨hok', hspaces'⟩ := callOk_and_leadingSpaces_of_parse ((callsignParse_congr h ..).mp hparse)
  apply charList_injective
  rw [charList_normalise hok, charList_normalise hok', hspaces, hspaces', h]

/-! ### The locator -/

theorem gridOk_congr {grid grid' : Field6} {len : BitVec 3} (h : presented grid len = presented grid' len) :
    gridOk grid len = gridOk grid' len := by
  rw [Bool.eq_iff_iff, gridOk_iff_locatorParse, gridOk_iff_locatorParse]
  simp only [LocatorParse, isPresented_iff, h]

/-- The packed locator is a function of the presented string (R108). -/
theorem mOf_congr {grid grid' : Field6} {len : BitVec 3} (h : presented grid len = presented grid' len)
    (hok : gridOk grid len = true) : mOf grid = mOf grid' := by
  have hlen : 4 ≤ len.toNat := by
    obtain ⟨-, hlen⟩ := gridOk_iff.mp hok
    omega
  have htake : ∀ x : Field6, (presented x len).take 4 = ((charList x).take 4).map up := by
    intro x
    rw [presented, ← List.map_take, List.take_take, Nat.min_eq_left hlen]
  rw [mOf_eq_iff hok (gridOk_congr h ▸ hok), ← htake, ← htake, h]

/-! ### The request -/

/-- `pack` reads the lengths, the presented strings and the power alone (R219). -/
theorem pack_congr {a b : Req} (h : SamePayload a b) : pack a = pack b := by
  obtain ⟨hcallLen, hgridLen, hdbm, hcall, hgrid⟩ := h
  have hcall' : presented a.call a.callLen = presented b.call a.callLen := by
    rw [presented, hcall, ← hcallLen, presented]
  have hgrid' : presented a.grid a.gridLen = presented b.grid a.gridLen := by
    rw [presented, hgrid, ← hgridLen, presented]
  unfold pack
  rw [← hcallLen, ← hgridLen, ← hdbm, ← callOk_congr hcall', ← gridOk_congr hgrid']
  split_ifs with hcallBad hgridBad hpwrBad
  · rfl
  · rfl
  · rfl
  · rw [Bool.not_eq_false] at hcallBad hgridBad
    rw [packedWord, packedWord, ← hcallLen, ← hdbm, normalise_congr hcall' hcallBad, mOf_congr hgrid' hgridBad]

/-- `encode` gives two requests of the same payload the same result (R219). -/
theorem transact_congr {a b : Req} (h : SamePayload a b) : transact a = transact b := by
  rw [transact, transact, pack_congr h]

/-- Settles O48: each transaction shows `encode` of its request, whatever else happened. -/
theorem resultDependsOnThePayloadAlone : Obligations.ResultDependsOnThePayloadAlone := by
  intro s s' t t' n n' hs hs' htrans htrans' hsame
  obtain ⟨-, -, hresult⟩ := finishedTransactionShowsEncode s t n hs htrans
  obtain ⟨-, -, hresult'⟩ := finishedTransactionShowsEncode s' t' n' hs' htrans'
  rw [← transact_congr hsame] at hresult'
  generalize transact s.ports.req = result at hresult hresult'
  match result with
  | .error .invalidCallsign | .error .invalidGrid | .error .invalidPower =>
    obtain ⟨⟨herr, hout⟩, herr', hout'⟩ := And.intro hresult hresult'
    exact ⟨herr.trans herr'.symm, hout.trans hout'.symm⟩
  | .ok _ =>
    obtain ⟨⟨herr, hout, -⟩, herr', hout', -⟩ := And.intro hresult hresult'
    exact ⟨herr.trans herr'.symm, hout.trans hout'.symm⟩

end Sys2Proof.Machine
end

section
/-! SUPPORT. The sequencer family, a whole transaction: a state of the invariant always steps, each step of a CORE that
encodes leads to the operation the request decides, and the steps add up to those R220 counts
(spec/45_sequencer_and_api.md R210, R220; 60_exceptions.md R250). -/

namespace Sys2Proof.Machine

/-! ### A state of the invariant always steps -/

/-- Where the invariant holds, the selected operation goes on: every element it reads has been written, and `P` is 162
at the end of `ILV` (R250). -/
theorem exists_exec_of_readyFor {s : State} {i : Instr} (hi : decodeSequencer s.ph s.k = .ok i)
    (hready : s.readyFor i) : ∃ u, exec i s = .next u := by
  have hcases := decodeSequencer_cases hi
  cases i with
  | reset => exact hcases.elim
  | accept | callNorm | gridChk | pwrLookup | callPack | gridPack | assemble =>
    exact exists_next_of_exec s _ (by simp)
  | convStep k =>
    obtain ⟨-, rfl, hk⟩ := hcases
    exact ⟨_, exec_convStep_of_le hk s⟩
  | ilvStep k =>
    obtain ⟨-, -, -, hcode, hp, -⟩ := readyFor_ilvStep_iff.mp hready
    have hk : BitVec.ofNat 8 k.toNat = k := by simp
    by_cases hcopy : ilvIndex k < 162
    · have hlt : s.p.toNat < 162 := hp ▸ copiesBefore_lt k.isLt (by rwa [hk])
      exact ⟨_, (exec_ilvStep_copy hcopy hlt (hcode _ hlt)).trans (ilvEnd_of_ne (ne_255_of_ilvIndex_lt hcopy) _)⟩
    · have hsucc := copiesBefore_succ k.toNat
      rw [hk, if_neg hcopy, Nat.add_zero, ← hp] at hsucc
      refine ⟨_, (exec_ilvStep_skip hcopy s).trans (ilvEnd_next_iff.mpr ⟨?_, rfl⟩)⟩
      rintro rfl
      exact BitVec.eq_of_toNat_eq (hsucc.symm.trans copiesBefore_256)
  | mrgStep k =>
    obtain ⟨-, rfl, hk⟩ := hcases
    obtain ⟨-, -, -, -, hdata, -⟩ := hready
    have hlt : s.k.toNat < 162 := Nat.lt_succ_of_le hk
    exact ⟨_, exec_mrgStep_of_lt hlt (syncRom_getElem?_of_lt hlt) (hdata _ hlt)⟩
  | emitStep k =>
    obtain ⟨-, rfl, hk⟩ := hcases
    obtain ⟨-, -, -, -, -, hsym, -⟩ := hready
    have hlt : s.k.toNat < 162 := Nat.lt_succ_of_le hk
    cases htaken : s.ports.symReady with
    | false => exact ⟨_, exec_emitStep_wait htaken⟩
    | true => exact ⟨_, exec_emitStep_taken htaken hlt (hsym _ hlt)⟩

/-- A state of the invariant has a next state, by `RESET` or by the selected operation. -/
theorem exists_step_of_inv {s : State} (h : s.Inv) : ∃ t, step s = .next t := by
  obtain ⟨i, hi, hready⟩ := h.ready
  cases hrst : s.ports.rst with
  | true => exact ⟨_, step_next_iff.mpr ⟨.reset, _, by rw [hrst]; rfl, exec_reset_next_iff.mpr rfl, rfl⟩⟩
  | false =>
    obtain ⟨u, hu⟩ := exists_exec_of_readyFor hi hready
    exact ⟨_, step_next_iff.mpr ⟨i, u, by rwa [if_neg (ne_true_of_eq_false hrst)], hu, rfl⟩⟩

/-! ### A CORE that encodes a request -/

/-- CORE is at operation `i` of the transaction of `q`, or has just ended it, and the host holds the ports with
`rst` = 0 and `sym_ready` = 1. -/
structure State.Encodes (s : State) (q : Req) (i : Instr) : Prop where
  inv : s.Inv
  selects : decodeSequencer s.ph s.k = .ok i
  latched : s.latch = q
  busyOrDone : s.ph ≠ 0 ∨ s.done = true
  notReset : s.ports.rst = false
  symReady : s.ports.symReady = true
  portsHold : s.host = []

/-- The operation the request decides: `ACCEPT` after a raise, else the successor. -/
def opAfter (q : Req) (i : Instr) : Instr := if (rejection i q).isSome then .accept else i.successor

/-- An operation other than `ACCEPT` is one of a busy CORE. -/
theorem State.Encodes.busy {s : State} {q : Req} {i : Instr} (h : s.Encodes q i) (hi : i ≠ .accept) : s.ph ≠ 0 := by
  intro hph
  have hselects := h.selects
  rw [hph] at hselects
  exact hi (eq_accept_of_decodeSequencer_idle hselects)

/-- One step of a busy CORE that encodes leads to the operation the request decides. -/
theorem State.Encodes.exists_step {s : State} {q : Req} {i : Instr} (h : s.Encodes q i) (hi : i ≠ .accept) :
    ∃ t, step s = .next t ∧ t.Encodes q (opAfter q i) := by
  have hbusy := h.busy hi
  obtain ⟨t, ht⟩ := exists_step_of_inv h.inv
  obtain ⟨hlatch, hend⟩ := latch_and_busy_or_done_of_step hbusy h.notReset ht
  have hinv := step_keeps_inv h.inv ht
  refine ⟨t, ht, ?_⟩
  obtain ⟨j, u, hj, hu, rfl, hsequel⟩ := exists_sequel_of_step h.notReset ht
  obtain rfl : j = i := Except.ok.inj (hj.symm.trans h.selects)
  obtain ⟨hports, hhost⟩ := exec_keeps_host hu
  rw [State.hostMove_of_host_nil u (hhost.trans h.portsHold)] at *
  have hselects : decodeSequencer u.ph u.k = .ok (opAfter q j) := by
    cases hsequel with
    | waits hwait _ => exact absurd hwait (not_waitsAt_of_busy hj hbusy fun _ => h.symReady)
    | raises e he hraise =>
      rw [opAfter, ← h.latched, he, hraise]
      rfl
    | goesOn _ hpass hnext =>
      rw [opAfter, ← h.latched, hpass]
      exact hnext
  exact ⟨hinv, hselects, hlatch.trans h.latched, hend, hports ▸ h.notReset, hports ▸ h.symReady,
    hhost.trans h.portsHold⟩

/-- After `n` steps the transaction of `q` has ended. -/
def State.EndsIn (s : State) (q : Req) (n : Nat) : Prop :=
  ∃ t, Host.Core.run core n s = .next t ∧ t.Encodes q .accept

theorem State.Encodes.endsIn_zero {s : State} {q : Req} (h : s.Encodes q .accept) : s.EndsIn q 0 := ⟨s, rfl, h⟩

/-- One step to the operation the request decides, then the rest. -/
theorem State.Encodes.endsIn_succ {s : State} {q : Req} {i j : Instr} {n : Nat} (h : s.Encodes q i)
    (hi : i ≠ .accept) (hj : opAfter q i = j) (hrest : ∀ t : State, t.Encodes q j → t.EndsIn q n) :
    s.EndsIn q (n + 1) := by
  obtain ⟨t, ht, hencodes⟩ := h.exists_step hi
  obtain ⟨v, hv, hend⟩ := hrest t (hj ▸ hencodes)
  exact ⟨v, (run_succ_of_next n ht).trans hv, hend⟩

/-! ### The steps of a transaction -/

theorem opAfter_callNorm (q : Req) :
    opAfter q .callNorm = if callOk q.call q.callLen then .gridChk else .accept := by
  cases hcall : callOk q.call q.callLen <;> simp [opAfter, rejection, Instr.successor, hcall]

theorem opAfter_gridChk (q : Req) :
    opAfter q .gridChk = if gridOk q.grid q.gridLen then .pwrLookup else .accept := by
  cases hgrid : gridOk q.grid q.gridLen <;> simp [opAfter, rejection, Instr.successor, hgrid]

theorem opAfter_pwrLookup (q : Req) : opAfter q .pwrLookup = if pwrOk q.dbm then .callPack else .accept := by
  cases hpwr : pwrOk q.dbm <;> simp [opAfter, rejection, Instr.successor, hpwr]

/-- No operation raises for a request that passes the three tests. -/
theorem opAfter_of_pack_ok {q : Req} {n : BitVec 50} (h : pack q = .ok n) (i : Instr) : opAfter q i = i.successor := by
  obtain ⟨hcall, hgrid, hpwr, -⟩ := of_pack_eq_ok h
  have hpass : rejection i q = none := by
    cases i with
    | callNorm => exact if_pos hcall
    | gridChk => exact if_pos hgrid
    | pwrLookup => exact if_pos hpwr
    | _ => rfl
  rw [opAfter, hpass]
  rfl

/-- An accepted request is encoded in the steps left, by induction on them (R220). -/
theorem State.Encodes.endsIn_stepsLeft {s : State} {q : Req} {i : Instr} {n : BitVec 50} (h : s.Encodes q i)
    (hpack : pack q = .ok n) : s.EndsIn q (stepsLeft i) := by
  induction hm : stepsLeft i generalizing s i with
  | zero =>
    by_cases hi : i = .accept
    · subst hi
      exact h.endsIn_zero
    · have := stepsLeft_eq_successor_add_one h.selects (h.busy hi)
      omega
  | succ m ih =>
    have hi : i ≠ .accept := by
      rintro rfl
      cases hm
    have hleft := stepsLeft_eq_successor_add_one h.selects (h.busy hi)
    exact h.endsIn_succ hi (opAfter_of_pack_ok hpack i) fun t ht => ih ht (by omega)

/-- From `CALL_NORM` on, a transaction takes the steps R220 counts, but for the one of its `ACCEPT`. -/
theorem State.Encodes.endsIn_transactionSteps {s : State} {q : Req} (h : s.Encodes q .callNorm) :
    ∃ n, transactionSteps q = n + 1 ∧ s.EndsIn q n := by
  cases hcall : callOk q.call q.callLen with
  | false =>
    refine ⟨1, by simp [transactionSteps, pack, hcall], ?_⟩
    exact h.endsIn_succ nofun (by rw [opAfter_callNorm, hcall]; rfl) fun _ ht => ht.endsIn_zero
  | true =>
    have hgridChk : opAfter q .callNorm = .gridChk := by rw [opAfter_callNorm, if_pos hcall]
    cases hgrid : gridOk q.grid q.gridLen with
    | false =>
      refine ⟨2, by simp [transactionSteps, pack, hcall, hgrid], ?_⟩
      exact h.endsIn_succ nofun hgridChk fun _ ht =>
        ht.endsIn_succ nofun (by rw [opAfter_gridChk, hgrid]; rfl) fun _ hu => hu.endsIn_zero
    | true =>
      have hpwrLookup : opAfter q .gridChk = .pwrLookup := by rw [opAfter_gridChk, if_pos hgrid]
      cases hpwr : pwrOk q.dbm with
      | false =>
        refine ⟨3, by simp [transactionSteps, pack, hcall, hgrid, hpwr], ?_⟩
        exact h.endsIn_succ nofun hgridChk fun _ ht => ht.endsIn_succ nofun hpwrLookup fun _ hu =>
          hu.endsIn_succ nofun (by rw [opAfter_pwrLookup, hpwr]; rfl) fun _ hv => hv.endsIn_zero
      | true =>
        have hpack := pack_of_ok hcall hgrid hpwr
        exact ⟨667, by rw [transactionSteps, hpack], h.endsIn_stepsLeft hpack⟩

/-- The step that takes a request, with ports that hold, leads to its `CALL_NORM` (R211). -/
theorem exists_accept_step {s : State} (h : s.Inv) (hph : s.ph = 0) (hrst : s.ports.rst = false)
    (hreq : s.ports.reqValid = true) (hready : s.ports.symReady = true) (hhost : s.host = []) :
    ∃ t, step s = .next t ∧ t.Encodes s.ports.req .callNorm := by
  obtain ⟨i, hi, -⟩ := h.ready
  rw [hph] at hi
  obtain rfl := eq_accept_of_decodeSequencer_idle hi
  have ht := step_of_exec_of_host_nil hrst hhost (hph ▸ hi) (exec_accept_next_iff.mpr (.inl ⟨hreq, rfl⟩))
  exact ⟨_, ht, step_keeps_inv h ht, rfl, rfl, .inl (by decide : (1 : BitVec 3) ≠ 0), hrst, hready, hhost⟩

/-- Settles O46: the steps add up to the count, and the invariant gives the result of the latched request. -/
theorem transactionComputesEncode : Obligations.TransactionComputesEncode := by
  intro s hinv hph hrst hreq hready hhost
  obtain ⟨u, hu, hencodes⟩ := exists_accept_step hinv hph hrst hreq hready hhost
  obtain ⟨n, hsteps, t, ht, hend⟩ := hencodes.endsIn_transactionSteps
  obtain ⟨hidle, -⟩ := decodeSequencer_cases hend.selects
  have hdone : t.done = true := hend.busyOrDone.resolve_left (not_not_intro hidle)
  refine ⟨t, by rw [hsteps, run_succ_of_next n hu, ht], hidle, by rw [hend.inv.busy, hidle]; rfl, hdone,
    hend.latched, ?_⟩
  rw [← hend.latched, transact]
  rcases result_of_finished hend.inv hidle hdone with ⟨e, hpack, herr, hout⟩ | ⟨word, hpack, herr, hout⟩
  · rw [hpack]
    cases e <;> exact ⟨herr, hout⟩
  · rw [hpack]
    exact ⟨herr, hout⟩

end Sys2Proof.Machine
end

section
/-! SUPPORT. The exceptions family: no run from a state of the invariant stops, and the checks of a request one after
another (spec/60_exceptions.md R246, R247, R250; 45_sequencer_and_api.md R220). -/

namespace Sys2Proof.Machine

/-! ### Runs that never stop -/

/-- Settles O44: where the invariant holds, `RESET` or the selected operation goes on. -/
theorem invariantStatesAlwaysStep : Obligations.InvariantStatesAlwaysStep := fun _ => exists_step_of_inv

/-- A run from a state of the invariant never stops, since every step goes on and keeps the invariant (R250). -/
theorem State.Inv.runsSafely {s : State} (h : s.Inv) : s.runsSafely := by
  intro n
  induction n generalizing s with
  | zero => exact ⟨s, rfl⟩
  | succ n ih =>
    obtain ⟨u, hu⟩ := exists_step_of_inv h
    rw [run_succ_of_next n hu]
    exact ih (step_keeps_inv h hu)

/-- Settles O45: the invariant holds right after reset, whatever the host. -/
theorem noRunFromResetStops : Obligations.NoRunFromResetStops := fun ports host => (inv_boot ports host).runsSafely

/-! ### The checks of a request -/

/-- The operation that rejects the latched request raises its error. -/
theorem exec_of_rejection {i : Instr} {s : State} {e : EncodeError} (h : rejection i s.latch = some e) :
    exec i s = .next (s.raise e) := by
  cases i with
  | callNorm =>
    obtain ⟨hbad, ⟨⟩⟩ := Option.ite_none_left_eq_some.mp h
    exact exec_callNorm_next_iff.mpr (.inr ⟨eq_false_of_ne_true hbad, rfl⟩)
  | gridChk =>
    obtain ⟨hbad, ⟨⟩⟩ := Option.ite_none_left_eq_some.mp h
    exact exec_gridChk_next_iff.mpr (.inr ⟨eq_false_of_ne_true hbad, rfl⟩)
  | pwrLookup =>
    obtain ⟨hbad, ⟨⟩⟩ := Option.ite_none_left_eq_some.mp h
    exact exec_pwrLookup_next_iff.mpr (.inr ⟨eq_false_of_ne_true hbad, rfl⟩)
  | _ => cases h

/-- CORE is at check `i` of the request `q` with nothing handed out, and the host holds the ports with `rst` = 0. Unlike
`State.Encodes` this asks for no invariant and no `sym_ready`. -/
structure State.Checks (s : State) (q : Req) (i : Instr) : Prop where
  selects : decodeSequencer s.ph s.k = .ok i
  latched : s.latch = q
  noSymbol : s.out = []
  notReset : s.ports.rst = false
  portsHold : s.host = []

/-- After `n` steps the transaction has ended with the error, in `IDLE` and with no symbol (R247). -/
def State.EndsInError (s : State) (n : Nat) (e : EncodeError) : Prop :=
  ∃ t : State, Host.Core.run core n s = .next t ∧
    t.err = errorCode e ∧ t.done = true ∧ t.busy = false ∧ t.out = [] ∧ t.ph = 0 ∧ t.k = 0

/-- One step, then the rest. -/
theorem State.EndsInError.succ {s u : State} {n : Nat} {e : EncodeError} (hu : step s = .next u)
    (h : u.EndsInError n e) : s.EndsInError (n + 1) e := by
  rwa [EndsInError, run_succ_of_next n hu]

/-- With ports that hold, the step of a check is its operation. -/
theorem State.Checks.step_of_exec {s u : State} {q : Req} {i : Instr} (h : s.Checks q i) (hu : exec i s = .next u) :
    step s = .next u :=
  step_of_exec_of_host_nil h.notReset h.portsHold h.selects hu

/-- A check that rejects the request ends its transaction in one step. -/
theorem State.Checks.endsInError {s : State} {q : Req} {i : Instr} {e : EncodeError} (h : s.Checks q i)
    (he : rejection i q = some e) : s.EndsInError 1 e :=
  .succ (h.step_of_exec (exec_of_rejection (h.latched ▸ he)))
    ⟨_, rfl, s.raise_err e, s.raise_done e, s.raise_busy e, (s.raise_out e).trans h.noSymbol, s.raise_ph e, s.raise_k e⟩

/-- `ACCEPT` takes the request at the port to its first check. -/
theorem checks_callNorm_of_request {s : State} (hph : s.ph = 0) (hk : s.k = 0) (hrst : s.ports.rst = false)
    (hreq : s.ports.reqValid = true) (hhost : s.host = []) :
    ∃ u, step s = .next u ∧ u.Checks s.ports.req .callNorm := by
  have hi : decodeSequencer s.ph s.k = .ok .accept := by rw [hph, hk]; rfl
  exact ⟨_, step_of_exec_of_host_nil hrst hhost hi (exec_accept_next_iff.mpr (.inl ⟨hreq, rfl⟩)),
    rfl, rfl, rfl, hrst, hhost⟩

/-- A callsign that passes leads to the check of the locator. -/
theorem State.Checks.gridChk {s : State} {q : Req} (h : s.Checks q .callNorm) (hok : callOk q.call q.callLen = true) :
    ∃ u, step s = .next u ∧ u.Checks q .gridChk := by
  obtain rfl := h.latched
  exact ⟨_, h.step_of_exec (exec_callNorm_next_iff.mpr (.inl ⟨hok, rfl⟩)),
    rfl, rfl, h.noSymbol, h.notReset, h.portsHold⟩

/-- A locator that passes leads to the check of the power. -/
theorem State.Checks.pwrLookup {s : State} {q : Req} (h : s.Checks q .gridChk)
    (hok : gridOk q.grid q.gridLen = true) : ∃ u, step s = .next u ∧ u.Checks q .pwrLookup := by
  obtain rfl := h.latched
  exact ⟨_, h.step_of_exec (exec_gridChk_next_iff.mpr (.inl ⟨hok, rfl⟩)),
    rfl, rfl, h.noSymbol, h.notReset, h.portsHold⟩

/-- With `rst` = 1 the step is `RESET`, whatever the sequencer selects (spec/40_field_packer.md R113). -/
theorem step_of_exec_reset {s u : State} (hrst : s.ports.rst = true) (hu : exec .reset s = .next u) :
    step s = .next u.hostMove :=
  step_next_iff.mpr ⟨.reset, u, by rw [if_pos hrst], hu, rfl⟩

/-- Settles O27: the checks run in the order of R246, and each that passes costs one step. -/
theorem firstFailingCheckIsReported : Obligations.FirstFailingCheckIsReported := by
  refine ⟨fun s u hrst hu => ⟨step_of_exec_reset hrst hu, by rw [exec_reset_next_iff.mp hu]; rfl⟩, ?_⟩
  intro s hph hk hrst hreq hhost
  obtain ⟨u, hu, hcall⟩ := checks_callNorm_of_request hph hk hrst hreq hhost
  refine ⟨fun hcallBad => ?_, fun hcallOk hgridBad => ?_, fun hcallOk hgridOk hpwrBad => ?_⟩
  · exact State.EndsInError.succ (e := .invalidCallsign) hu (hcall.endsInError (by rw [rejection, hcallBad]; rfl))
  · obtain ⟨v, hv, hgrid⟩ := hcall.gridChk hcallOk
    exact State.EndsInError.succ (e := .invalidGrid) hu (.succ hv (hgrid.endsInError (by rw [rejection, hgridBad]; rfl)))
  · obtain ⟨v, hv, hgrid⟩ := hcall.gridChk hcallOk
    obtain ⟨w, hw, hpwr⟩ := hgrid.pwrLookup hgridOk
    exact State.EndsInError.succ (e := .invalidPower) hu
      (.succ hv (.succ hw (hpwr.endsInError (by rw [rejection, hpwrBad]; rfl))))

end Sys2Proof.Machine
end

section
/-! SUPPORT. The reset family: `RESET` from any state, and a host that holds `rst` = 1 (spec/70_reset_and_hazards.md
R270). -/

namespace Sys2Proof.Machine

/-- `RESET` answers the state right after reset, with the ports and the host's coming moves as they were. -/
theorem exec_reset_eq_boot (s : State) : exec .reset s = .next (State.boot s.ports s.host) :=
  exec_reset_next_iff.mpr rfl

/-- Under `rst` = 1 with no move of the host to come, one step resets, also where the word is reserved. -/
theorem step_eq_boot_of_rst {s : State} (hrst : s.ports.rst = true) (hhost : s.host = []) :
    step s = .next (State.boot s.ports s.host) := by
  rw [step_of_exec_reset hrst (exec_reset_eq_boot s), (State.boot s.ports s.host).hostMove_of_host_nil hhost]

/-- A host that holds `rst` = 1 keeps CORE reset: the first step resets, and each later one answers the state it starts
from. -/
theorem run_eq_boot_of_rst {s : State} (hrst : s.ports.rst = true) (hhost : s.host = []) (n : Nat) :
    Host.Core.run core (n + 1) s = .next (State.boot s.ports s.host) := by
  have hstays : step (State.boot s.ports s.host) = .next (State.boot s.ports s.host) := step_eq_boot_of_rst hrst hhost
  rw [run_succ_of_next n (step_eq_boot_of_rst hrst hhost)]
  exact run_self_of_step_self hstays n

/-- Settles O14: from any state `RESET` answers the state right after reset with that state's ports and host. -/
theorem resetFromAnyState : Obligations.ResetFromAnyState := by
  refine ⟨rfl, rfl, rfl, rfl, rfl, rfl, rfl, rfl, fun s => ⟨State.boot s.ports s.host, exec_reset_eq_boot s, ?_⟩⟩
  have hbuffers : ∀ j, bufRead (State.boot s.ports s.host).mem.cbuf j = none ∧
      bufRead (State.boot s.ports s.host).mem.dbuf j = none ∧
      bufRead (State.boot s.ports s.host).mem.ybuf j = none := fun _ => ⟨rfl, rfl, rfl⟩
  exact ⟨rfl, rfl, rfl, rfl, rfl, rfl, rfl, rfl, hbuffers, rfl, rfl,
    fun hrst => ⟨step_of_exec_reset hrst (exec_reset_eq_boot s), rfl⟩, run_eq_boot_of_rst⟩

end Sys2Proof.Machine
end
